-- ==== Sys2Proof/Word.lean ====
section
/-! DEFINITION. The word types of the block (00_scope.md R12): every quantity is unsigned. -/

namespace Sys2Proof

/-- A byte: the width of every bus register, OAM cell, palette cell and mapper access (R70). -/
abbrev Byte := BitVec 8

/-- An address of the 14-bit PPU address space (R33, R72). -/
abbrev VAddr := BitVec 14

/-- A 16-bit command word (R101). -/
abbrev CmdWord := BitVec 16

/-- A 2-bit colour index, palette selector, nametable number or event code. -/
abbrev Bits2 := BitVec 2

end Sys2Proof
end

