-- ==== Sys2Proof/Config.lean ====
section
/-! DEFINITION. What is fixed for one machine (00_scope.md R7, R8): the document's constants, the OPEN
parameters as plain data, and the operations of a mapper the model does not know. -/

namespace Sys2Proof

/-! ### Constants (R7) -/

def Config.cyclesPerScanline : Nat := 341
def Config.scanlinesPerFrame : Nat := 262
def Config.regCount : Nat := 8
def Config.oamSize : Nat := 256
def Config.paletteSize : Nat := 32
def Config.spriteCount : Nat := 64
def Config.gridCols : Nat := 32
def Config.gridRows : Nat := 30
def Config.visibleColumns : Nat := 256
def Config.visibleScanlines : Nat := 240

/-- 262 scanlines of 341 cycles: 89342 (R7). -/
def Config.cyclesPerFrame : Nat := Config.scanlinesPerFrame * Config.cyclesPerScanline

/-! ### The OPEN parameters (R7) -/

/-- The OPEN parameters of R7, "an explicit configuration value passed into the core at construction"
(R239). They stand in `State.params`, so that a claim about every state is a claim about every value of
them (D6). No step writes them. DESIGN CHOICE, log 1. -/
structure Params where
  vblankStartCycle : Nat
  vblankEndCycle : Nat
  sprite0CycleOffset : Nat
  /-- R239, D37: no effect on any rule. -/
  verbosity : Nat
  deriving DecidableEq, Repr

/-- The defaults of R7 (D6, from general knowledge GK9). Verbosity 0: DESIGN CHOICE, log 1. -/
def Params.default : Params :=
  { vblankStartCycle := 82182, vblankEndCycle := 89002, sprite0CycleOffset := 1, verbosity := 0 }

/-- The constraint of R8, a hypothesis on the configuration and never a test at run time. -/
abbrev Params.Ok (p : Params) : Prop :=
  239 * 341 + 255 + p.sprite0CycleOffset < p.vblankStartCycle ∧
    p.vblankStartCycle < p.vblankEndCycle ∧ p.vblankEndCycle < Config.cyclesPerFrame

/-! ### The mapper's mirroring and a mapper the model does not know (R74) -/

/-- The value `mapper.mirroring`, "of which the core distinguishes Horizontal, Vertical and anything
else" (R74). -/
inductive Mirroring where
  | horizontal
  | vertical
  | other
  deriving DecidableEq, Repr, Inhabited

/-- `ppuRead` of a mapper the model does not know, as a function of its state and the address (R74).
Nothing is known of its value. Log 2. -/
opaque Config.externalRead : Nat → VAddr → Byte

/-- `ppuWrite` of a mapper the model does not know: its state after the write (R74, X7). Log 2. -/
opaque Config.externalWrite : Nat → VAddr → Byte → Nat

/-- `mirroring` of a mapper the model does not know (R74). Log 2. -/
opaque Config.externalMirroring : Nat → Mirroring

/-- The page of `nt` that holds nametable `t` of RefNROM in a mirroring mode for which R79 gives no
formula. Log 4. -/
opaque Config.otherPage : Bits2 → BitVec 1

end Sys2Proof
end

