-- ==== Sys2Proof/Syntax.lean ====
section
/-! DEFINITION. The commands and event actions of spec/opcode_table.json, one constructor a row, and the
forms in which they reach the core. -/

namespace Sys2Proof

/-- One constructor for each of the 26 rows: sixteen bus transactions, six other commands, four event
actions (R9, R101, R102, R103). -/
inductive Instr where
  | rd0
  | rd1
  | rd2
  | rd3
  | rd4
  | rd5
  | rd6
  | rd7
  | wr0 (d : Byte)
  | wr1 (d : Byte)
  | wr2 (d : Byte)
  | wr3 (d : Byte)
  | wr4 (d : Byte)
  | wr5 (d : Byte)
  | wr6 (d : Byte)
  | wr7 (d : Byte)
  /-- `n` elapsed cycles, an unbounded natural (R101, R130). -/
  | advance (n : Nat)
  /-- `src` is the 256 bytes the bus collaborator read at host page `page` (R210). -/
  | oamdma (page : Byte) (src : List Byte)
  | pollnmi
  | reset
  | chrremap
  | tileq (half : BitVec 1) (id : Byte)
  /-- Fired by ADVANCE, never issued by the host (R131); so the three below. -/
  | vblankStart
  | vblankEnd
  | draw
  | sprite0Hit
  deriving DecidableEq, Repr

/-- A scheduled action (R26, R103). -/
inductive Action where
  | vblankStart
  | vblankEnd
  | draw
  | sprite0Hit
  deriving DecidableEq, Repr

/-- A command as the host presents it: the 16-bit word and the two operands that do not fit in it,
carried beside it (R101). A command that has no such operand ignores them. -/
structure Command where
  word : CmdWord
  n : Nat
  src : List Byte
  deriving DecidableEq, Repr

/-- What the host puts on the core's ports: a command word, or a register-bus call in the document's
form `read(index)` / `write(index, byte)`, whose index may be out of range (R21, R223; log 6). -/
inductive Request where
  | command (c : Command)
  | busRead (index : Nat)
  | busWrite (index : Nat) (d : Byte)
  deriving DecidableEq, Repr

/-- The encoding of an instruction: a command, or the 2-bit code of an event action (R101, R103). -/
inductive Encoded where
  | command (c : Command)
  | event (code : Bits2)
  deriving DecidableEq, Repr

end Sys2Proof
end

