-- ==== Sys2Proof/WellFormed.lean ====
section
/-! DEFINITION. Which instructions are well formed. The types carry every other bound: an 8-bit byte, a
1-bit table half, a natural number of cycles. -/

namespace Sys2Proof

/-- The source of an OAMDMA is exactly 256 bytes (R101, R210). -/
def sourceOk (src : List Byte) : Bool := src.length == Config.oamSize

def wellFormed : Instr → Bool
  | .oamdma _ src => sourceOk src
  | .rd0 => true
  | .rd1 => true
  | .rd2 => true
  | .rd3 => true
  | .rd4 => true
  | .rd5 => true
  | .rd6 => true
  | .rd7 => true
  | .wr0 _ => true
  | .wr1 _ => true
  | .wr2 _ => true
  | .wr3 _ => true
  | .wr4 _ => true
  | .wr5 _ => true
  | .wr6 _ => true
  | .wr7 _ => true
  | .advance _ => true
  | .pollnmi => true
  | .reset => true
  | .chrremap => true
  | .tileq _ _ => true
  | .vblankStart => true
  | .vblankEnd => true
  | .draw => true
  | .sprite0Hit => true

end Sys2Proof
end

