-- ==== Sys2Proof/Decode.lean ====
section
/-! DEFINITION. The decoder, total on every command word, operand and event code, rejecting by name; then
the encoder, written from the same tables (30_encoding.md R101 to R103). -/

namespace Sys2Proof

/-- Why the decoder rejects. -/
inductive DecodeError where
  /-- Tags 7 to 15 select no command (R117 a). -/
  | reservedTag (tag : BitVec 4)
  /-- An OAMDMA whose operand is not 256 bytes (R101; log 8). -/
  | sourceLength (length : Nat)
  /-- A register index outside 0..7 (R117 b, R223). -/
  | registerIndex (index : Nat)
  deriving DecidableEq, Repr

/-! ### Fields of the command word (R101) -/

def tagOf (w : CmdWord) : BitVec 4 := w.extractLsb' 12 4
def rwOf (w : CmdWord) : BitVec 1 := w.extractLsb' 11 1
def regOf (w : CmdWord) : BitVec 3 := w.extractLsb' 8 3
def dataOf (w : CmdWord) : Byte := w.extractLsb' 0 8

/-- TILEQ's table half is word bit 8 (R101, R182). -/
def halfOf (w : CmdWord) : BitVec 1 := w.extractLsb' 8 1

/-! ### Decoding -/

/-- The eight bus reads by register index (R21, R102). -/
def busReadInstr (index : Nat) : Except DecodeError Instr :=
  match index with
  | 0 => .ok .rd0
  | 1 => .ok .rd1
  | 2 => .ok .rd2
  | 3 => .ok .rd3
  | 4 => .ok .rd4
  | 5 => .ok .rd5
  | 6 => .ok .rd6
  | 7 => .ok .rd7
  | _ => .error (.registerIndex index)

/-- The eight bus writes by register index (R21, R102). -/
def busWriteInstr (index : Nat) (d : Byte) : Except DecodeError Instr :=
  match index with
  | 0 => .ok (.wr0 d)
  | 1 => .ok (.wr1 d)
  | 2 => .ok (.wr2 d)
  | 3 => .ok (.wr3 d)
  | 4 => .ok (.wr4 d)
  | 5 => .ok (.wr5 d)
  | 6 => .ok (.wr6 d)
  | 7 => .ok (.wr7 d)
  | _ => .error (.registerIndex index)

/-- The command of a word and its operands (R101, R102): the bits a command does not use are ignored. -/
def decodeCommand (c : Command) : Except DecodeError Instr :=
  match (tagOf c.word).toNat with
  | 0 =>
    if rwOf c.word = 0#1 then busReadInstr (regOf c.word).toNat
    else busWriteInstr (regOf c.word).toNat (dataOf c.word)
  | 1 => .ok (.advance c.n)
  | 2 =>
    if sourceOk c.src then .ok (.oamdma (dataOf c.word) c.src)
    else .error (.sourceLength c.src.length)
  | 3 => .ok .pollnmi
  | 4 => .ok .reset
  | 5 => .ok .chrremap
  | 6 => .ok (.tileq (halfOf c.word) (dataOf c.word))
  | _ => .error (.reservedTag (tagOf c.word))

/-- The action of a 2-bit event code (R103). -/
def actionOfCode (code : Bits2) : Action :=
  match code.toNat with
  | 0 => .vblankStart
  | 1 => .vblankEnd
  | 2 => .draw
  | _ => .sprite0Hit

/-- The 2-bit event code of an action (R103). -/
def codeOfAction : Action → Bits2
  | .vblankStart => 0#2
  | .vblankEnd => 1#2
  | .draw => 2#2
  | .sprite0Hit => 3#2

/-- The table's row of an action. -/
def instrOfAction : Action → Instr
  | .vblankStart => .vblankStart
  | .vblankEnd => .vblankEnd
  | .draw => .draw
  | .sprite0Hit => .sprite0Hit

def decode : Encoded → Except DecodeError Instr
  | .command c => decodeCommand c
  | .event code => .ok (instrOfAction (actionOfCode code))

/-- What a request of the host asks for. -/
def decodeRequest : Request → Except DecodeError Instr
  | .command c => decodeCommand c
  | .busRead index => busReadInstr index
  | .busWrite index d => busWriteInstr index d

/-! ### Encoding -/

/-- A command word from its four fields (R101): `tag || rw || reg || data`. -/
def packWord (tag : BitVec 4) (rw : BitVec 1) (reg : BitVec 3) (data : Byte) : CmdWord :=
  tag ++ rw ++ reg ++ data

/-- A command that has no operand beside its word. -/
def plainCommand (tag : BitVec 4) (rw : BitVec 1) (reg : BitVec 3) (data : Byte) : Encoded :=
  .command { word := packWord tag rw reg data, n := 0, src := [] }

def encodeRead (reg : BitVec 3) : Encoded := plainCommand 0#4 0#1 reg 0#8

def encodeWrite (reg : BitVec 3) (d : Byte) : Encoded := plainCommand 0#4 1#1 reg d

/-- The encoding of an instruction; bits it does not use are 0. -/
def encode : Instr → Encoded
  | .rd0 => encodeRead 0#3
  | .rd1 => encodeRead 1#3
  | .rd2 => encodeRead 2#3
  | .rd3 => encodeRead 3#3
  | .rd4 => encodeRead 4#3
  | .rd5 => encodeRead 5#3
  | .rd6 => encodeRead 6#3
  | .rd7 => encodeRead 7#3
  | .wr0 d => encodeWrite 0#3 d
  | .wr1 d => encodeWrite 1#3 d
  | .wr2 d => encodeWrite 2#3 d
  | .wr3 d => encodeWrite 3#3 d
  | .wr4 d => encodeWrite 4#3 d
  | .wr5 d => encodeWrite 5#3 d
  | .wr6 d => encodeWrite 6#3 d
  | .wr7 d => encodeWrite 7#3 d
  | .advance n => .command { word := packWord 1#4 0#1 0#3 0#8, n := n, src := [] }
  | .oamdma page src => .command { word := packWord 2#4 0#1 0#3 page, n := 0, src := src }
  | .pollnmi => plainCommand 3#4 0#1 0#3 0#8
  | .reset => plainCommand 4#4 0#1 0#3 0#8
  | .chrremap => plainCommand 5#4 0#1 0#3 0#8
  | .tileq half id => plainCommand 6#4 0#1 (0#2 ++ half) id
  | .vblankStart => .event (codeOfAction .vblankStart)
  | .vblankEnd => .event (codeOfAction .vblankEnd)
  | .draw => .event (codeOfAction .draw)
  | .sprite0Hit => .event (codeOfAction .sprite0Hit)

/-! ### The host's question about a table row -/

/-- The command of a word whose operands are all zero: `n = 0` and 256 zero bytes. -/
def commandOfWord (w : Nat) : Command :=
  { word := BitVec.ofNat 16 w, n := 0, src := List.replicate Config.oamSize 0#8 }

/-- What the encoding of a table row's bits is. The event rows have 2 bits (one byte when counted in
whole bytes), every command row has 16; bits beyond an event row's two are not part of it (log 18). -/
def encodedOfTableWord (nbits w : Nat) : Encoded :=
  if nbits ≤ 8 then .event (BitVec.ofNat 2 w) else .command (commandOfWord w)

def decodeTableWord (nbits w : Nat) : Option Instr :=
  match decode (encodedOfTableWord nbits w) with
  | .ok i => some i
  | .error _ => none

end Sys2Proof
end

