-- ==== Sys2Proof/Machine/State.lean ====
section
/-! DEFINITION. The state of the core (10_state.md R20 to R42), of the collaborators it reaches (R43), and
the model's own host port; the reset state (R45); the reasons a step can stop. All plain data. -/

namespace Sys2Proof.Machine

open Sys2Proof

/-- Sparse byte memory: (address, byte) pairs, addresses strictly rising, no byte 0; an unlisted address
reads 0 (log 11). The operations stand in Machine/Ops.lean. -/
abbrev Memory := List Host.Cell

/-! ### Registers (R22 to R38) -/

/-- Control fields (R27). -/
structure Ctrl where
  ntBase : Bits2
  incr32 : Bool
  sprTable : BitVec 1
  bgTable : BitVec 1
  sprSize : Bool
  masterSlave : Bool
  nmiEnable : Bool
  deriving DecidableEq, Repr

/-- Mask fields (R28). -/
structure Mask where
  gray : Bool
  leftBg : Bool
  leftSpr : Bool
  showBg : Bool
  showSpr : Bool
  emphR : Bool
  emphG : Bool
  emphB : Bool
  deriving DecidableEq, Repr

/-- Status flags (R29). -/
structure Stat where
  vblank : Bool
  spr0Hit : Bool
  overflow : Bool
  deriving DecidableEq, Repr

/-- The components of R22 to R38: exactly what a halt's snapshot copies (R42, R225). -/
structure Regs where
  cycle : Nat
  frame : Nat
  nextAction : Action
  nextActionCycle : Nat
  ctrl : Ctrl
  mask : Mask
  stat : Stat
  latch : Byte
  oamAddr : Byte
  oam : Memory
  vramAddr : VAddr
  scrollX : Byte
  scrollY : Byte
  nextScroll : Bool
  nextAddr : Bool
  readBuf : Byte
  pal : Memory
  nmiPending : Bool
  deriving DecidableEq, Repr

/-! ### Caches and pipeline outputs (R39 to R41) -/

/-- A decoded tile: 64 colour indices, pixel (r, c) at `r * 8 + c` (R39, R112). -/
abbrev Tile := Vector Bits2 64

/-- The tile cache; entry (half, id) stands at `half * 256 + id` (R39). -/
abbrev TileCache := Vector (Option Tile) 512

/-- A background cell (R40). -/
structure GridCell where
  tileId : Byte
  palSel : Bits2
  deriving DecidableEq, Repr

/-- 30 rows of 32 cells (R40). -/
abbrev Grid := Vector (Vector GridCell 32) 30

/-- The colour indices of a decoded sprite, row by row (R41). -/
abbrev SpriteRows := Vector (Vector Bits2 8) 8

/-- A decoded sprite (R41). -/
structure Sprite where
  yTop : BitVec 9
  x : Byte
  tileId : Byte
  palSel : Bits2
  priority : Bool
  flipH : Bool
  flipV : Bool
  rows : SpriteRows
  deriving DecidableEq, Repr

abbrev Sprites := Vector Sprite 64

/-- What one call of `Present` hands over (R137). -/
structure FrameRecord where
  frame : Nat
  grid : Grid
  sprites : Sprites
  deriving DecidableEq, Repr

/-! ### Run state (R42, R220) -/

inductive HaltCause where
  /-- F1, fatal: WR0 with bit 6 set (R221). -/
  | masterSlaveSet
  /-- F2, fatal: Schedule at or before `cycle`, or beyond the frame (R222). -/
  | schedulerInvariant
  /-- F3, fatal: a register index outside 0..7, which is recorded (R223). -/
  | badRegisterIndex (index : Nat)
  /-- U1, unsupported: 8x16 sprites in Predict (R224). -/
  | sprite8x16
  /-- U2, unsupported: mirroring neither Horizontal nor Vertical in RebuildGrid (R226). -/
  | unsupportedMirroring
  /-- U3, unsupported: CHRREMAP (R227). -/
  | bankedChrInvalidation
  deriving DecidableEq, Repr

/-- The cause codes of R220's table. -/
def HaltCause.code : HaltCause → Nat
  | .masterSlaveSet => 1
  | .schedulerInvariant => 2
  | .badRegisterIndex _ => 3
  | .sprite8x16 => 4
  | .unsupportedMirroring => 5
  | .bankedChrInvalidation => 6

inductive Run where
  | running
  | halted (cause : HaltCause) (snapshot : Regs)
  deriving DecidableEq, Repr

/-! ### The mapper collaborator (R43, R74, R79) -/

/-- The reference mapper (R79). `chr` is keyed 0..0x1FFF, `nt` 0..0x7FF. -/
structure RefNROM where
  chr : Memory
  chrWritable : Bool
  nt : Memory
  mirroring : Mirroring
  deriving DecidableEq, Repr

/-- The mapper attached to the core: the reference mapper, or one of which nothing is known but that its
reads are pure (R74), with its state coded as a number. Log 2. -/
inductive Mapper where
  | refNROM (m : RefNROM)
  | external (m : Nat)
  deriving DecidableEq, Repr

/-- The value a command returns (R101's column "returns"). -/
inductive Reply where
  | byte (v : Byte)
  | bit (b : Bool)
  | pixels (t : Tile)
  deriving DecidableEq, Repr

structure State where
  regs : Regs
  tileCache : TileCache
  grid : Grid
  gridValid : Bool
  sprites : Sprites
  run : Run
  /-- The mapper collaborator's state (R43). -/
  mapper : Mapper
  /-- The frame records handed to `Present`, oldest first (R43, R137; log 15). -/
  presented : List FrameRecord
  /-- The OPEN parameters (R7); no step writes them (log 1). -/
  params : Params
  /-- The commands the host has presented and the core has not taken yet, oldest first (log 5). -/
  requests : List Request
  /-- The value the last command returned, if it returned one (log 7). -/
  reply : Option Reply
  deriving DecidableEq, Repr

/-- Why `exec` stops without a next state. -/
inductive Fault where
  /-- Raised by the meaning of OAMDMA on an ill-formed term, whose source is not 256 bytes; the decoder
  never yields one. Safe: the machine stops where the spec gives no command. Log 8. -/
  | malformedSource
  deriving DecidableEq, Repr

/-- Why `exec` or `step` refuses. -/
inductive Refusal where
  /-- Raised by `exec` for an instruction that has no meaning yet. Safe. No arm of this model raises it. -/
  | notModelled (mnemonic : String)
  /-- Raised by `step` for a command word of tag 7 to 15, to which the spec gives no meaning (R117 a, X5).
  Safe. -/
  | reservedTag (tag : BitVec 4)
  /-- Raised by `step` for an OAMDMA command whose operand is not 256 bytes. Safe. Log 8. -/
  | sourceLength (length : Nat)
  deriving DecidableEq, Repr

/-! ### Reset (R45) -/

def Ctrl.reset : Ctrl :=
  { ntBase := 0#2, incr32 := false, sprTable := 0#1, bgTable := 0#1, sprSize := false,
    masterSlave := false, nmiEnable := false }

def Mask.reset : Mask :=
  { gray := false, leftBg := false, leftSpr := false, showBg := false, showSpr := false,
    emphR := false, emphG := false, emphB := false }

def Stat.reset : Stat := { vblank := false, spr0Hit := false, overflow := false }

/-- The registers of R45's table (D28; log 9): zeros, with VBLANK_START outstanding. -/
def Regs.reset (p : Params) : Regs :=
  { cycle := 0, frame := 0, nextAction := .vblankStart, nextActionCycle := p.vblankStartCycle,
    ctrl := Ctrl.reset, mask := Mask.reset, stat := Stat.reset, latch := 0#8, oamAddr := 0#8,
    oam := [], vramAddr := 0#14, scrollX := 0#8, scrollY := 0#8, nextScroll := false,
    nextAddr := false, readBuf := 0#8, pal := [], nmiPending := false }

/-- The contents of a background cell at reset, which the spec leaves unspecified. DESIGN CHOICE, log 10. -/
def GridCell.reset : GridCell := { tileId := 0#8, palSel := 0#2 }

/-- The contents of a sprite record at reset, which the spec leaves unspecified. DESIGN CHOICE, log 10. -/
def Sprite.reset : Sprite :=
  { yTop := 1#9, x := 0#8, tileId := 0#8, palSel := 0#2, priority := false, flipH := false,
    flipV := false, rows := Vector.replicate 8 (Vector.replicate 8 0#2) }

/-- A fresh core (R45, R212) beside the given collaborators, parameters and waiting commands. -/
def State.fresh (m : Mapper) (shown : List FrameRecord) (p : Params) (waiting : List Request) : State :=
  { regs := Regs.reset p, tileCache := Vector.replicate 512 none,
    grid := Vector.replicate 30 (Vector.replicate 32 GridCell.reset), gridValid := false,
    sprites := Vector.replicate 64 Sprite.reset, run := .running, mapper := m, presented := shown,
    params := p, requests := waiting, reply := none }

/-- The mapper at power-up: RefNROM, all bytes 0, not writable, Vertical, the start of every vector of
95_test_vectors.md. The spec fixes no mapper. DESIGN CHOICE, log 3. -/
def Mapper.initial : Mapper :=
  .refNROM { chr := [], chrWritable := false, nt := [], mirroring := .vertical }

/-- The machine at power-up, which is the same as after RESET (R45, R212), with the default parameters. -/
def State.reset : State := State.fresh Mapper.initial [] Params.default []

end Sys2Proof.Machine
end

