-- ==== Sys2Proof/Machine/Ops.lean ====
section
/-! DEFINITION. The shared operations: byte memory, the halt entry and its one way out, the mapper and the
PPU address space, Schedule, and how a command runs. -/

namespace Sys2Proof.Machine

open Sys2Proof

/-- What a meaning and a step answer. -/
abbrev Result := Host.Outcome State Fault Refusal

/-! ### Byte memory -/

/-- One byte; an unlisted address reads 0 (log 11). -/
def Memory.read : Memory → Nat → Byte
  | [], _ => 0#8
  | (k, w) :: rest, a => if k = a then w else Memory.read rest a

/-- Store one byte, keeping the canonical form: storing 0 removes the entry. -/
def Memory.write : Memory → Nat → Byte → Memory
  | [], a, v => if v = 0#8 then [] else [(a, v)]
  | (k, w) :: rest, a, v =>
    if a < k then (if v = 0#8 then (k, w) :: rest else (a, v) :: (k, w) :: rest)
    else if a = k then (if v = 0#8 then rest else (a, v) :: rest)
    else (k, w) :: Memory.write rest a v

/-- Canonical from `lo` on: addresses strictly rising, none below `lo`, no byte 0. -/
def Memory.wfFrom : Nat → Memory → Bool
  | _, [] => true
  | lo, (k, w) :: rest => decide (lo ≤ k) && (w != 0#8) && Memory.wfFrom (k + 1) rest

/-- The canonical form. -/
def Memory.wf (m : Memory) : Bool := Memory.wfFrom 0 m

/-- Every listed address lies below `size`. -/
def Memory.below (size : Nat) (m : Memory) : Bool := m.all fun c => decide (c.1 < size)

/-! ### Whole-state updates -/

/-- Change the registers of R22 to R38 only. -/
def State.withRegs (s : State) (f : Regs → Regs) : State := { s with regs := f s.regs }

/-- The running command returns a value. -/
def State.answer (s : State) (r : Reply) : State := { s with reply := some r }

/-- No value returned (yet) by the command about to run. -/
def State.clearReply (s : State) : State := { s with reply := none }

/-! ### Halt entry and the way out (R225, R232, R233) -/

/-- `Halt(cause)` (R225): the snapshot is a copy of the registers at this instant; no other component
changes (R232). -/
def State.halt (s : State) (c : HaltCause) : State := { s with run := .halted c s.regs }

/-- Go on with a rule's next statements only if no Halt was reached ("no later statement of the rule, of
the action, or of the ADVANCE loop runs", R225). -/
def State.andThen (s : State) (f : State → State) : State :=
  match s.run with
  | .running => f s
  | .halted _ _ => s

/-- RESET's effect (R212), from any state and the only way out of Halted (R233): every component of the
core at its value of R45; the mapper and the frames already presented are not touched. -/
def resetCore (s : State) : State := State.fresh s.mapper s.presented s.params s.requests

/-- A command other than RESET runs its body when the core is Running; in Halted it changes nothing and
returns no value (R213). -/
def perform (body : State → State) (s : State) : Result :=
  .next (s.clearReply.andThen body)

/-! ### The mapper (R74, R79) -/

/-- RefNROM's page of nametable `t` (R79); in a third mode R79 gives no formula (log 4). -/
def nromPage (mir : Mirroring) (t : Nat) : Nat :=
  match mir with
  | .vertical => t % 2
  | .horizontal => t / 2
  | .other => (Config.otherPage (BitVec.ofNat 2 t)).toNat

/-- RefNROM's place in `nt` of an address at or above 0x2000 (R79). -/
def nromNtIndex (mir : Mirroring) (a : Nat) : Nat :=
  let b := (a - 0x2000) % 0x1000
  0x400 * nromPage mir (b / 0x400) + b % 0x400

/-- RefNROM's `ppuRead` (R79). -/
def RefNROM.read (m : RefNROM) (a : VAddr) : Byte :=
  if a.toNat < 0x2000 then Memory.read m.chr a.toNat
  else Memory.read m.nt (nromNtIndex m.mirroring a.toNat)

/-- RefNROM's `ppuWrite` (R79): below 0x2000 it stores only if `chrWritable`. -/
def RefNROM.write (m : RefNROM) (a : VAddr) (v : Byte) : RefNROM :=
  if a.toNat < 0x2000 then
    (if m.chrWritable then { m with chr := Memory.write m.chr a.toNat v } else m)
  else { m with nt := Memory.write m.nt (nromNtIndex m.mirroring a.toNat) v }

/-- `mapper.ppuRead` (R74): no effect on the mapper. -/
def ppuRead (m : Mapper) (a : VAddr) : Byte :=
  match m with
  | .refNROM n => n.read a
  | .external e => Config.externalRead e a

/-- `mapper.ppuWrite` (R74). -/
def ppuWrite (m : Mapper) (a : VAddr) (v : Byte) : Mapper :=
  match m with
  | .refNROM n => .refNROM (n.write a v)
  | .external e => .external (Config.externalWrite e a v)

/-- `mapper.mirroring` (R74). -/
def mirroringOf (m : Mapper) : Mirroring :=
  match m with
  | .refNROM n => n.mirroring
  | .external e => Config.externalMirroring e

/-- The two modes the render pipeline accepts (R78, R194). -/
def mirroringSupported (m : Mapper) : Bool :=
  match mirroringOf m with
  | .horizontal => true
  | .vertical => true
  | .other => false

/-! ### The PPU address space (R72, R75 to R77) -/

/-- Palette RAM is at 0x3F00 and above (R72). -/
def inPalette (a : VAddr) : Bool := decide (0x3F00 ≤ a.toNat)

/-- `PalIndex` (R75): the low five bits, with 0x10, 0x14, 0x18, 0x1C sent to 0x00, 0x04, 0x08, 0x0C. -/
def palIndex (a : VAddr) : BitVec 5 :=
  if a.getLsbD 4 && a.extractLsb' 0 2 == 0#2 then 0#1 ++ a.extractLsb' 0 4
  else a.extractLsb' 0 5

/-- The palette cell an address at or above 0x3F00 reaches. -/
def palRead (pal : Memory) (a : VAddr) : Byte := Memory.read pal (palIndex a).toNat

/-- `VramRead` (R76). -/
def vramRead (s : State) (a : VAddr) : Byte :=
  if inPalette a then palRead s.regs.pal a else ppuRead s.mapper a

/-- `VramWrite` (R77): palette RAM or the mapper, and no copy kept anywhere. -/
def vramWrite (a : VAddr) (v : Byte) (s : State) : State :=
  if inPalette a then
    s.withRegs fun r => { r with pal := Memory.write r.pal (palIndex a).toNat v }
  else { s with mapper := ppuWrite s.mapper a v }

/-! ### OAM (R32) -/

/-- The byte of OAM at an index below 256. -/
def oamByte (s : State) (i : Nat) : Byte := Memory.read s.regs.oam i

/-! ### Schedule (R132) -/

/-- `Schedule(a, c)` (R132): F2 unless `cycle < c <= CYCLES_PER_FRAME`, else the outstanding action is
replaced. -/
def schedule (a : Action) (c : Nat) (s : State) : State :=
  if c ≤ s.regs.cycle ∨ Config.cyclesPerFrame < c then s.halt .schedulerInvariant
  else s.withRegs fun r => { r with nextAction := a, nextActionCycle := c }

end Sys2Proof.Machine
end

