-- ==== Sys2Proof/Machine/Flags.lean ====
section
/-! DEFINITION. The Control, Mask and Status bytes (30_encoding.md R104 to R106). -/

namespace Sys2Proof.Machine

open Sys2Proof

/-- The Control fields of a byte (R104). `masterSlave` is not stored: a byte with bit 6 set halts first
(R159). -/
def ctrlOfByte (old : Ctrl) (d : Byte) : Ctrl :=
  { old with
    ntBase := d.extractLsb' 0 2
    incr32 := d.getLsbD 2
    sprTable := d.extractLsb' 3 1
    bgTable := d.extractLsb' 4 1
    sprSize := d.getLsbD 5
    nmiEnable := d.getLsbD 7 }

/-- The Mask fields of a byte (R105). -/
def maskOfByte (d : Byte) : Mask :=
  { gray := d.getLsbD 0
    leftBg := d.getLsbD 1
    leftSpr := d.getLsbD 2
    showBg := d.getLsbD 3
    showSpr := d.getLsbD 4
    emphR := d.getLsbD 5
    emphG := d.getLsbD 6
    emphB := d.getLsbD 7 }

/-- Bit 6 of a Control byte: fatal when set (R221). -/
def masterSlaveBit (d : Byte) : Bool := d.getLsbD 6

/-- A Control byte that changes `ntBase` or `bgTable` invalidates the grid (R159, R196). -/
def invalidatesGrid (old : Ctrl) (d : Byte) : Bool :=
  d.extractLsb' 0 2 != old.ntBase || d.extractLsb' 4 1 != old.bgTable

/-- A flag as a bit of a byte. -/
def flagBit (b : Bool) (n : Nat) : Byte := (if b then 1#8 else 0#8) <<< n

/-- The Status byte (R106): the latch's low five bits under the three flags. -/
def statusByte (latch : Byte) (f : Stat) : Byte :=
  (latch &&& 0x1F#8) ||| flagBit f.overflow 5 ||| flagBit f.spr0Hit 6 ||| flagBit f.vblank 7

end Sys2Proof.Machine
end

