-- ==== Sys2Proof/Machine/Operands.lean ====
section
/-! DEFINITION. Operand assembly and the data formats: the two-write protocols (R110, R111), the pointer
step (R115), OAM entries (R107, R108), background attribute bytes (R109, R192), tile, nametable and
attribute addresses (R112, R113), screen position (R24). -/

namespace Sys2Proof.Machine

open Sys2Proof

/-! ### Two-write protocols -/

/-- First Address write: bits 13:8 are replaced by the byte's low six bits (R110). -/
def addrHigh (v : VAddr) (d : Byte) : VAddr := d.extractLsb' 0 6 ++ v.extractLsb' 0 8

/-- Second Address write: bits 7:0 are replaced (R110). -/
def addrLow (v : VAddr) (d : Byte) : VAddr := v.extractLsb' 8 6 ++ d

/-- The pointer after an Address write, by the toggle (R110, R165). -/
def assembleAddr (second : Bool) (v : VAddr) (d : Byte) : VAddr :=
  if second then addrLow v d else addrHigh v d

/-- `VramInc`: 1 or 32 (R115). -/
def vramInc (c : Ctrl) : VAddr := if c.incr32 then 32#14 else 1#14

/-- Where a Data read refills the buffer from: the address itself, or 0x1000 below a palette address
(R158, D16). -/
def refillAddr (a : VAddr) : VAddr := if inPalette a then a - 0x1000#14 else a

/-! ### OAM entries -/

/-- Byte `i` of sprite slot `k` (R107). -/
def slotByte (s : State) (k i : Nat) : Byte := oamByte s (4 * k + i)

/-- `palSel`, bits 1:0 of a sprite attribute byte (R108). -/
def attrPalSel (b : Byte) : Bits2 := b.extractLsb' 0 2

/-- `priority`, bit 5 (R108). -/
def attrPriority (b : Byte) : Bool := b.getLsbD 5

/-- `flipH`, bit 6 (R108). -/
def attrFlipH (b : Byte) : Bool := b.getLsbD 6

/-- `flipV`, bit 7 (R108). -/
def attrFlipV (b : Byte) : Bool := b.getLsbD 7

/-- A coordinate 0..7 in a tile, mirrored or not (R193, R204). -/
def flipCoord (flip : Bool) (k : Nat) : Nat := if flip then 7 - k else k

/-! ### Tiles -/

/-- The first of a tile's sixteen bytes: `half * 0x1000 + id * 16` (R112). -/
def tileAddr (half : BitVec 1) (id : Byte) : VAddr :=
  BitVec.ofNat 14 (half.toNat * 0x1000 + id.toNat * 16)

/-- One pixel: `p0[7 - c] | (p1[7 - c] << 1)` (R112, R181). -/
def pixelOf (p0 p1 : Byte) (c : Nat) : Bits2 :=
  BitVec.ofBool (p1.getLsbD (7 - c)) ++ BitVec.ofBool (p0.getLsbD (7 - c))

/-- `Decode(p0, p1)` (R181). -/
def decodeTile (p0 p1 : Vector Byte 8) : Tile :=
  Vector.ofFn fun k : Fin 64 => pixelOf p0[k.val / 8] p1[k.val / 8] (k.val % 8)

/-- The pixel at row `r`, column `c` of a tile, both 0..7. -/
def tilePixel (t : Tile) (r c : Nat) : Bits2 := t[(r % 8) * 8 + c % 8]'(by omega)

/-- Opaque: the colour index is not 0 (R16, R204). -/
def isOpaque (px : Bits2) : Bool := px != 0#2

/-! ### The background (R109, R113, R192) -/

/-- The tile byte of cell (row, col) of nametable `n` (R113). -/
def ntTileAddr (n : Bits2) (row col : Nat) : VAddr :=
  BitVec.ofNat 14 (0x2000 + 0x400 * n.toNat + row * 32 + col)

/-- The attribute byte of cell (row, col) of nametable `n` (R113). -/
def ntAttrAddr (n : Bits2) (row col : Nat) : VAddr :=
  BitVec.ofNat 14 (0x2000 + 0x400 * n.toNat + 0x3C0 + (row / 4) * 8 + col / 4)

/-- The shift of a cell's quadrant (R109, R192). -/
def quadrantShift (row col : Nat) : Nat := 2 * ((col / 2) % 2) + 4 * ((row / 2) % 2)

/-- The palette selector of a cell in its attribute byte (R109). -/
def quadrantSel (attr : Byte) (row col : Nat) : Bits2 := (attr >>> quadrantShift row col).setWidth 2

/-- The cell at (row, col) of the grid, rows 0..29 and columns 0..31. -/
def gridCell (g : Grid) (row col : Nat) : GridCell :=
  (g[row % 30]'(by omega))[col % 32]'(by omega)

/-! ### Screen position (R24) -/

/-- The scanline of a cycle. -/
def scanlineOf (cycle : Nat) : Nat := cycle / Config.cyclesPerScanline

/-- The dot of a cycle. -/
def dotOf (cycle : Nat) : Nat := cycle % Config.cyclesPerScanline

end Sys2Proof.Machine
end

