-- ==== Sys2Proof/Machine/BusRead.lean ====
section
/-! DEFINITION. The eight bus reads (41_registers.md R151 to R158). No read changes the latch (R150). -/

namespace Sys2Proof.Machine

open Sys2Proof

/-- A read of a write-only register returns the latch and changes nothing (R150, R228). -/
def readLatch (s : State) : State := s.answer (.byte s.regs.latch)

/-- RD0, RD CTRL (R151). -/
def execRd0 (s : State) : Result := perform readLatch s

/-- RD1, RD MASK (R152). -/
def execRd1 (s : State) : Result := perform readLatch s

/-- RD2, RD STATUS (R153): the value is formed before the clear. -/
def readStatus (s : State) : State :=
  (s.withRegs fun r =>
    { r with stat := { r.stat with vblank := false }, nextScroll := false, nextAddr := false }).answer
    (.byte (statusByte s.regs.latch s.regs.stat))

def execRd2 (s : State) : Result := perform readStatus s

/-- RD3, RD OAMADDR (R154). -/
def execRd3 (s : State) : Result := perform readLatch s

/-- RD4, RD OAMDATA (R155): `oamAddr` does not move. -/
def readOam (s : State) : State := s.answer (.byte (oamByte s s.regs.oamAddr.toNat))

def execRd4 (s : State) : Result := perform readOam s

/-- RD5, RD SCROLL (R156). -/
def execRd5 (s : State) : Result := perform readLatch s

/-- RD6, RD ADDR (R157). -/
def execRd6 (s : State) : Result := perform readLatch s

/-- What a Data read returns: a palette byte at once, else the buffer (R158). -/
def dataValue (s : State) : Byte :=
  if inPalette s.regs.vramAddr then palRead s.regs.pal s.regs.vramAddr else s.regs.readBuf

/-- RD7, RD DATA (R158). -/
def readData (s : State) : State :=
  (s.withRegs fun r =>
    { r with
      readBuf := ppuRead s.mapper (refillAddr r.vramAddr)
      vramAddr := r.vramAddr + vramInc r.ctrl }).answer
    (.byte (dataValue s))

def execRd7 (s : State) : Result := perform readData s

/-- BUS dispatch of an index outside 0..7: `Halt(F3)` before any other effect, recording the index (R150,
R220, R223). -/
def badIndex (index : Nat) (s : State) : Result :=
  perform (fun s => s.halt (.badRegisterIndex index)) s

end Sys2Proof.Machine
end

