-- ==== Sys2Proof/Machine/BusWrite.lean ====
section
/-! DEFINITION. The eight bus writes (41_registers.md R159 to R166). -/

namespace Sys2Proof.Machine

open Sys2Proof

/-- `latch <- d`, the first effect of every write (R150). -/
def setLatch (d : Byte) (s : State) : State := s.withRegs fun r => { r with latch := d }

/-- A bus write: the latch first, then the register's own effect (R150). -/
def busWrite (d : Byte) (effect : State → State) (s : State) : Result :=
  perform (fun s => effect (setLatch d s)) s

/-- WR0's effect after the latch (R159): F1 before any field is decoded. -/
def writeCtrl (d : Byte) (s : State) : State :=
  if masterSlaveBit d then s.halt .masterSlaveSet
  else
    { s with
      gridValid := s.gridValid && !invalidatesGrid s.regs.ctrl d
      regs := { s.regs with ctrl := ctrlOfByte s.regs.ctrl d } }

/-- WR0, WR CTRL (R159). -/
def execWr0 (d : Byte) (s : State) : Result := busWrite d (writeCtrl d) s

/-- WR1's effect after the latch (R160). -/
def writeMask (d : Byte) (s : State) : State := s.withRegs fun r => { r with mask := maskOfByte d }

/-- WR1, WR MASK (R160). -/
def execWr1 (d : Byte) (s : State) : Result := busWrite d (writeMask d) s

/-- WR2, WR STATUS (R161): the latch and nothing else. -/
def execWr2 (d : Byte) (s : State) : Result := busWrite d (fun s => s) s

/-- WR3's effect after the latch (R162). -/
def writeOamAddr (d : Byte) (s : State) : State := s.withRegs fun r => { r with oamAddr := d }

/-- WR3, WR OAMADDR (R162). -/
def execWr3 (d : Byte) (s : State) : Result := busWrite d (writeOamAddr d) s

/-- WR4's effect after the latch (R163). -/
def writeOamData (d : Byte) (s : State) : State :=
  s.withRegs fun r =>
    { r with oam := Memory.write r.oam r.oamAddr.toNat d, oamAddr := r.oamAddr + 1#8 }

/-- WR4, WR OAMDATA (R163). -/
def execWr4 (d : Byte) (s : State) : Result := busWrite d (writeOamData d) s

/-- WR5's effect after the latch (R164). -/
def writeScroll (d : Byte) (s : State) : State :=
  s.withRegs fun r =>
    { r with
      scrollX := if r.nextScroll then r.scrollX else d
      scrollY := if r.nextScroll then d else r.scrollY
      nextScroll := !r.nextScroll }

/-- WR5, WR SCROLL (R164). -/
def execWr5 (d : Byte) (s : State) : Result := busWrite d (writeScroll d) s

/-- WR6's effect after the latch (R165). -/
def writeAddr (d : Byte) (s : State) : State :=
  s.withRegs fun r =>
    { r with vramAddr := assembleAddr r.nextAddr r.vramAddr d, nextAddr := !r.nextAddr }

/-- WR6, WR ADDR (R165). -/
def execWr6 (d : Byte) (s : State) : Result := busWrite d (writeAddr d) s

/-- WR7's effect after the latch (R166). -/
def writeData (d : Byte) (s : State) : State :=
  (vramWrite s.regs.vramAddr d s).withRegs fun r =>
    { r with vramAddr := r.vramAddr + vramInc r.ctrl }

/-- WR7, WR DATA (R166). -/
def execWr7 (d : Byte) (s : State) : Result := busWrite d (writeData d) s

end Sys2Proof.Machine
end

