-- ==== Sys2Proof/Machine/HostPorts.lean ====
section
/-! DEFINITION. OAM-DMA, the interrupt poll and reset (45_host_ports.md R210 to R212). -/

namespace Sys2Proof.Machine

open Sys2Proof

/-- `oam[(start + i) mod 256] <- src[i]` for the bytes of `src` in order (R210). -/
def dmaCopy : List Byte → Byte → Memory → Memory
  | [], _, oam => oam
  | v :: rest, at_, oam => dmaCopy rest (at_ + 1#8) (Memory.write oam at_.toNat v)

/-- OAMDMA's effect (R210): `oamAddr` is read, not written; the latch is not changed. -/
def copyToOam (src : List Byte) (s : State) : State :=
  s.withRegs fun r => { r with oam := dmaCopy src r.oamAddr r.oam }

/-- OAMDMA page, src (R210). The page is used only by the bus collaborator. A term whose source is not 256
bytes is no command (log 8). -/
def execOamdma (_page : Byte) (src : List Byte) (s : State) : Result :=
  if sourceOk src then perform (copyToOam src) s else .fault .malformedSource

/-- POLLNMI's effect (R211). -/
def pollNmi (s : State) : State :=
  (s.withRegs fun r => { r with nmiPending := false }).answer (.bit s.regs.nmiPending)

/-- POLLNMI (R211). -/
def execPollnmi (s : State) : Result := perform pollNmi s

/-- RESET (R212): from any state, Halted included. -/
def execReset (s : State) : Result := .next (resetCore s)

end Sys2Proof.Machine
end

