-- ==== Sys2Proof/Machine/TileCache.lean ====
section
/-! DEFINITION. The tile pattern cache and decoder (42_tile_cache.md): Tile, TILEQ, CHRREMAP. -/

namespace Sys2Proof.Machine

open Sys2Proof

/-- The place of (half, id) among the 512 entries (R39). -/
def tileKey (half : BitVec 1) (id : Byte) : Fin 512 :=
  ⟨half.toNat * 256 + id.toNat, by have := half.isLt; have := id.isLt; omega⟩

/-- The eight row bytes of bitplane 0 (`T + 0 ..`) or 1 (`T + 8 ..`) (R180). -/
def planeBytes (m : Mapper) (half : BitVec 1) (id : Byte) (plane : Nat) : Vector Byte 8 :=
  Vector.ofFn fun r : Fin 8 => ppuRead m (tileAddr half id + BitVec.ofNat 14 (8 * plane + r.val))

/-- What a miss decodes: the sixteen bytes the mapper holds now (R180). -/
def fetchTile (m : Mapper) (half : BitVec 1) (id : Byte) : Tile :=
  decodeTile (planeBytes m half id 0) (planeBytes m half id 1)

/-- What `Tile(half, id)` returns in a state: the cached array, or on a miss the decode of the present
bytes (R180). -/
def tileValue (s : State) (half : BitVec 1) (id : Byte) : Tile :=
  (s.tileCache[tileKey half id]).getD (fetchTile s.mapper half id)

/-- `Tile(half, id)` as a change of state: it fills the entry on a miss and never refills (R180, R184). -/
def tileFill (half : BitVec 1) (id : Byte) (s : State) : State :=
  match s.tileCache[tileKey half id] with
  | some _ => s
  | none =>
    { s with tileCache := s.tileCache.set (tileKey half id) (some (fetchTile s.mapper half id)) }

/-- TILEQ half, id (R182): `return Tile(half, id)`. -/
def execTileq (half : BitVec 1) (id : Byte) (s : State) : Result :=
  perform (fun s => (tileFill half id s).answer (.pixels (tileValue s half id))) s

/-- CHRREMAP (R183): `Halt(U3)`, always; the cache is not emptied. -/
def execChrremap (s : State) : Result := perform (fun s => s.halt .bankedChrInvalidation) s

end Sys2Proof.Machine
end

