-- ==== Sys2Proof/Machine/Render.lean ====
section
/-! DEFINITION. The render pipeline (43_render_pipeline.md): RebuildGrid and DecodeSprites. -/

namespace Sys2Proof.Machine

open Sys2Proof

/-- The cell RebuildGrid stores at (row, col) for nametable `n` (R191). -/
def builtCell (m : Mapper) (n : Bits2) (row col : Nat) : GridCell :=
  { tileId := ppuRead m (ntTileAddr n row col)
    palSel := quadrantSel (ppuRead m (ntAttrAddr n row col)) row col }

/-- The grid of nametable `n` (R191). -/
def builtGrid (m : Mapper) (n : Bits2) : Grid :=
  Vector.ofFn fun row : Fin 30 => Vector.ofFn fun col : Fin 32 => builtCell m n row.val col.val

/-- `RebuildGrid()` (R191); an unsupported mirroring mode halts at its entry (R194). -/
def rebuildGrid (s : State) : State :=
  if mirroringSupported s.mapper then
    { s with grid := builtGrid s.mapper s.regs.ctrl.ntBase, gridValid := true }
  else s.halt .unsupportedMirroring

/-- The sprite record of four OAM bytes and the tile its second byte names (R193). -/
def spriteOf (b0 b1 b2 b3 : Byte) (t : Tile) : Sprite :=
  { yTop := b0.setWidth 9 + 1#9
    x := b3
    tileId := b1
    palSel := attrPalSel b2
    priority := attrPriority b2
    flipH := attrFlipH b2
    flipV := attrFlipV b2
    rows := Vector.ofFn fun r : Fin 8 => Vector.ofFn fun c : Fin 8 =>
      tilePixel t (flipCoord (attrFlipV b2) r.val) (flipCoord (attrFlipH b2) c.val) }

/-- The record of OAM slot `k` in a state. -/
def slotSprite (s : State) (k : Nat) : Sprite :=
  spriteOf (slotByte s k 0) (slotByte s k 1) (slotByte s k 2) (slotByte s k 3)
    (tileValue s s.regs.ctrl.sprTable (slotByte s k 1))

/-- One turn of DecodeSprites' loop (R193). -/
def decodeSprite (s : State) (k : Fin 64) : State :=
  let filled := tileFill s.regs.ctrl.sprTable (slotByte s k.val 1) s
  { filled with sprites := filled.sprites.set k.val (slotSprite s k.val) }

/-- `DecodeSprites()` (R193): all 64 slots in increasing order. -/
def decodeSprites (s : State) : State := (List.finRange 64).foldl decodeSprite s

end Sys2Proof.Machine
end

