-- ==== Sys2Proof/Machine/Predictor.lean ====
section
/-! DEFINITION. The sprite-0 hit predictor (44_sprite0_predictor.md): Predict. -/

namespace Sys2Proof.Machine

open Sys2Proof

/-- The top screen row of sprite 0, 1..256 (R202). -/
def sprite0Top (s : State) : Nat := (slotByte s 0 0).toNat + 1

/-- The cycle of screen pixel (x, y) (R204). -/
def hitCycle (p : Params) (x y : Nat) : Nat :=
  y * Config.cyclesPerScanline + x + p.sprite0CycleOffset

/-- Sprite 0's colour index at row `r`, column `c` of its footprint, flips honoured (R204). -/
def sprite0Pixel (s : State) (t : Tile) (r c : Nat) : Bits2 :=
  tilePixel t (flipCoord (attrFlipV (slotByte s 0 2)) r) (flipCoord (attrFlipH (slotByte s 0 2)) c)

/-- The background tile under screen pixel (x, y) (R204). -/
def bgTileId (s : State) (x y : Nat) : Byte := (gridCell s.grid (y / 8) (x / 8)).tileId

/-- The scan of R204 over the footprint's pixels not yet looked at, `k = r * 8 + c` in raster order, with
sprite 0's tile `t`. -/
def predictScan (t : Tile) : List Nat → State → Option Nat × State
  | [], s => (none, s)
  | k :: rest, s =>
    let y := sprite0Top s + k / 8
    let x := (slotByte s 0 3).toNat + k % 8
    if Config.visibleScanlines ≤ y ∨ Config.visibleColumns ≤ x then predictScan t rest s
    else if isOpaque (sprite0Pixel s t (k / 8) (k % 8)) then
      let bg := tileValue s s.regs.ctrl.bgTable (bgTileId s x y)
      let filled := tileFill s.regs.ctrl.bgTable (bgTileId s x y) s
      if isOpaque (tilePixel bg y x) then (some (hitCycle s.params x y), filled)
      else predictScan t rest filled
    else predictScan t rest s

/-- `Predict()` (R204): the two early exits (R201, R202), the size test (R203), the scan. -/
def predict (s : State) : Option Nat × State :=
  if !s.regs.mask.showBg || !s.regs.mask.showSpr then (none, s)
  else if Config.visibleScanlines ≤ sprite0Top s then (none, s)
  else if s.regs.ctrl.sprSize then (none, s.halt .sprite8x16)
  else
    predictScan (tileValue s s.regs.ctrl.sprTable (slotByte s 0 1)) (List.range 64)
      (tileFill s.regs.ctrl.sprTable (slotByte s 0 1) s)

end Sys2Proof.Machine
end

