-- ==== Sys2Proof/Machine/Scheduler.lean ====
section
/-! DEFINITION. The clock scheduler (40_scheduler.md): the four event actions, Fire, ADVANCE. -/

namespace Sys2Proof.Machine

open Sys2Proof

/-- VBLANK_START (R133). -/
def actVblankStart (s : State) : State :=
  schedule .vblankEnd s.params.vblankEndCycle
    (s.withRegs fun r =>
      { r with
        stat := { r.stat with vblank := true }
        nmiPending := r.nmiPending || r.ctrl.nmiEnable })

/-- VBLANK_END (R134). -/
def actVblankEnd (s : State) : State :=
  (rebuildGrid s).andThen fun s =>
    schedule .draw Config.cyclesPerFrame
      ((decodeSprites s).withRegs fun r =>
        { r with stat := { r.stat with spr0Hit := false, vblank := false } })

/-- `Present({frame, grid, sprites})` (R137). -/
def present (s : State) : State :=
  { s with
    presented := s.presented ++ [{ frame := s.regs.frame, grid := s.grid, sprites := s.sprites }] }

/-- What DRAW schedules for what Predict returned (R135). -/
def scheduleHit (h : Option Nat) (s : State) : State :=
  match h with
  | some c => schedule .sprite0Hit c s
  | none => schedule .vblankStart s.params.vblankStartCycle s

/-- RebuildGrid only when the grid is invalid (R135, R196). -/
def refreshGrid (s : State) : State := if s.gridValid then s else rebuildGrid s

/-- DRAW's last two statements, after Predict: nothing more if it halted (R135). -/
def finishDraw (p : Option Nat × State) : State := p.2.andThen (scheduleHit p.1)

/-- DRAW (R135). -/
def actDraw (s : State) : State :=
  (refreshGrid (s.withRegs fun r => { r with frame := r.frame + 1 })).andThen fun s =>
    finishDraw (predict (present s))

/-- SPRITE0_HIT (R136). -/
def actSprite0Hit (s : State) : State :=
  schedule .vblankStart s.params.vblankStartCycle
    (s.withRegs fun r => { r with stat := { r.stat with spr0Hit := true } })

/-- `Fire(a)` (R131). -/
def fire : Action → State → State
  | .vblankStart => actVblankStart
  | .vblankEnd => actVblankEnd
  | .draw => actDraw
  | .sprite0Hit => actSprite0Hit

/-- `cycle` moved to the outstanding action's own cycle (R130). -/
def arrive (s : State) : State :=
  s.withRegs fun r => { r with cycle := r.nextActionCycle % Config.cyclesPerFrame }

/-- The loop of ADVANCE (R130) with `rem` cycles left. `fuel` bounds the passes: every action schedules
strictly later or halts, so each pass after the first lowers `rem` (log 13). -/
def advanceLoop : Nat → Nat → State → State
  | 0, _, s => s
  | fuel + 1, rem, s =>
    s.andThen fun s =>
      if s.regs.nextActionCycle ≤ s.regs.cycle + rem then
        advanceLoop fuel (s.regs.cycle + rem - s.regs.nextActionCycle)
          (fire s.regs.nextAction (arrive s))
      else s.withRegs fun r => { r with cycle := (r.cycle + rem) % Config.cyclesPerFrame }

/-- Passes that suffice for `n` cycles from a state (log 13). -/
def advanceFuel (n : Nat) (s : State) : Nat := s.regs.cycle + n + 2

/-- ADVANCE n (R130). -/
def execAdvance (n : Nat) (s : State) : Result :=
  perform (fun s => advanceLoop (advanceFuel n s) n s) s

/-- VBLANK_START on its own, as ADVANCE's loop fires it (R131, R133). -/
def execVblankStart (s : State) : Result := perform actVblankStart s

/-- VBLANK_END on its own (R131, R134). -/
def execVblankEnd (s : State) : Result := perform actVblankEnd s

/-- DRAW on its own (R131, R135). -/
def execDraw (s : State) : Result := perform actDraw s

/-- SPRITE0_HIT on its own (R131, R136). -/
def execSprite0Hit (s : State) : Result := perform actSprite0Hit s

end Sys2Proof.Machine
end

