-- ==== Sys2Proof/Machine/Dispatch.lean ====
section
/-! DEFINITION. The dispatch: one arm per constructor of Instr, each one call of its meaning. -/

namespace Sys2Proof.Machine

open Sys2Proof

def exec (i : Instr) (s : State) : Host.Outcome State Fault Refusal :=
  match i with
  -- bus reads
  | .rd0 => Sys2Proof.Machine.execRd0 s
  | .rd1 => Sys2Proof.Machine.execRd1 s
  | .rd2 => Sys2Proof.Machine.execRd2 s
  | .rd3 => Sys2Proof.Machine.execRd3 s
  | .rd4 => Sys2Proof.Machine.execRd4 s
  | .rd5 => Sys2Proof.Machine.execRd5 s
  | .rd6 => Sys2Proof.Machine.execRd6 s
  | .rd7 => Sys2Proof.Machine.execRd7 s
  -- bus writes
  | .wr0 d => Sys2Proof.Machine.execWr0 d s
  | .wr1 d => Sys2Proof.Machine.execWr1 d s
  | .wr2 d => Sys2Proof.Machine.execWr2 d s
  | .wr3 d => Sys2Proof.Machine.execWr3 d s
  | .wr4 d => Sys2Proof.Machine.execWr4 d s
  | .wr5 d => Sys2Proof.Machine.execWr5 d s
  | .wr6 d => Sys2Proof.Machine.execWr6 d s
  | .wr7 d => Sys2Proof.Machine.execWr7 d s
  -- other commands
  | .advance n => Sys2Proof.Machine.execAdvance n s
  | .oamdma page src => Sys2Proof.Machine.execOamdma page src s
  | .pollnmi => Sys2Proof.Machine.execPollnmi s
  | .reset => Sys2Proof.Machine.execReset s
  | .chrremap => Sys2Proof.Machine.execChrremap s
  | .tileq half id => Sys2Proof.Machine.execTileq half id s
  -- event actions
  | .vblankStart => Sys2Proof.Machine.execVblankStart s
  | .vblankEnd => Sys2Proof.Machine.execVblankEnd s
  | .draw => Sys2Proof.Machine.execDraw s
  | .sprite0Hit => Sys2Proof.Machine.execSprite0Hit s

end Sys2Proof.Machine
end

