-- ==== Sys2Proof/Machine/Port.lean ====
section
/-! DEFINITION. The host port (30_encoding.md R100): how a waiting request runs, and how one instruction is
put where the next step takes it. -/

namespace Sys2Proof.Machine

open Sys2Proof

/-- What a request that is no command does: a bad register index halts (R223); a reserved tag and a
malformed OAMDMA operand are refused by name (R117, log 8). -/
def rejectRequest (e : DecodeError) (s : State) : Result :=
  match e with
  | .registerIndex index => badIndex index s
  | .reservedTag tag => .refused (.reservedTag tag)
  | .sourceLength length => .refused (.sourceLength length)

/-- Run one request to completion (R9). -/
def runRequest (q : Request) (s : State) : Result :=
  match decodeRequest q with
  | .ok i => exec i s
  | .error e => rejectRequest e s

/-- The host presents one more command, to be taken next. -/
def presentCommand (c : Command) (s : State) : State :=
  { s with requests := .command c :: s.requests }

/-- The cycle at which an action is outstanding (R44 g); for SPRITE0_HIT the earliest one. -/
def actionCycle (p : Params) : Action → Nat
  | .vblankStart => p.vblankStartCycle
  | .vblankEnd => p.vblankEndCycle
  | .draw => Config.cyclesPerFrame
  | .sprite0Hit => hitCycle p 0 1

/-- The command ADVANCE 1. -/
def advanceOne : Command := { word := packWord 1#4 0#1 0#3 0#8, n := 1, src := [] }

/-- The machine one cycle before action `a` is due, with ADVANCE 1 presented: the next step fires exactly
`a`. An action cannot be presented itself, since "the host cannot issue one" (R131; log 14). -/
def presentAction (a : Action) (s : State) : State :=
  presentCommand advanceOne
    (s.withRegs fun r =>
      { r with
        cycle := actionCycle s.params a - 1
        nextAction := a
        nextActionCycle := actionCycle s.params a })

/-- Put one encoded instruction where the next step takes it. -/
def presentEncoded (e : Encoded) (s : State) : State :=
  match e with
  | .command c => presentCommand c s
  | .event code => presentAction (actionOfCode code) s

end Sys2Proof.Machine
end

