-- ==== Sys2Proof/Machine/Step.lean ====
section
/-! DEFINITION. One step: the oldest waiting request runs to completion (00_scope.md R9, R84). -/

namespace Sys2Proof.Machine

open Sys2Proof

/-- One step. With nothing presented the core "simply stays" as it is (R240; log 5). -/
def step (s : State) : Host.Outcome State Fault Refusal :=
  match s.requests with
  | [] => .next s
  | q :: rest => runRequest q { s with requests := rest }

/-- `s` with one instruction placed so that the next step runs it: a command joins the front of the
waiting requests, an event action is made due under ADVANCE 1 (log 5, log 14). -/
def State.withFetchWord (s : State) (nbits w : Nat) : State :=
  presentEncoded (encodedOfTableWord nbits w) s

end Sys2Proof.Machine
end

