-- ==== Sys2Proof/Safety.lean ====
section
/-! DEFINITION. What counts as a well-formed and safe state: the invariants of 10_state.md R44 and the
canonical form of the byte memories. -/

namespace Sys2Proof.Machine

open Sys2Proof

/-- Running: a Halted state is never final or successful (R213). -/
abbrev State.Running (s : State) : Prop := s.run = .running

/-- A byte memory in canonical form with addresses below `size`. -/
abbrev Memory.Fits (size : Nat) (m : Memory) : Prop :=
  Memory.wf m = true ∧ Memory.below size m = true

/-- The mapper's memories fit (R79); nothing is known of an external mapper's state. -/
abbrev Mapper.Fits (m : Mapper) : Prop :=
  match m with
  | .refNROM n => Memory.Fits 0x2000 n.chr ∧ Memory.Fits 0x800 n.nt
  | .external _ => True

/-- The four palette cells that are never addressed (R44 d). -/
abbrev PaletteAliasesUnused (pal : Memory) : Prop :=
  Memory.read pal 0x10 = 0#8 ∧ Memory.read pal 0x14 = 0#8 ∧
    Memory.read pal 0x18 = 0#8 ∧ Memory.read pal 0x1C = 0#8

/-- The cycle of the outstanding action is one its action can have (R44 g). -/
abbrev ActionCycleLegal (p : Params) (a : Action) (c : Nat) : Prop :=
  match a with
  | .vblankStart => c = p.vblankStartCycle
  | .vblankEnd => c = p.vblankEndCycle
  | .draw => c = Config.cyclesPerFrame
  | .sprite0Hit => 341 + p.sprite0CycleOffset ≤ c ∧ c ≤ 81754 + p.sprite0CycleOffset

/-- The clock of R44 (a) and (g): the outstanding action lies ahead, within the frame, at a cycle of its
own. -/
structure ClockOk (p : Params) (r : Regs) : Prop where
  ahead : r.cycle < r.nextActionCycle
  inFrame : r.nextActionCycle ≤ Config.cyclesPerFrame
  legal : ActionCycleLegal p r.nextAction r.nextActionCycle

/-- The invariant of the machine (R8, R44): the clock's part holds while Running. -/
structure State.Inv (s : State) : Prop where
  params : s.params.Ok
  clock : s.Running → ClockOk s.params s.regs
  masterSlave : s.regs.ctrl.masterSlave = false
  overflow : s.regs.stat.overflow = false
  oam : Memory.Fits Config.oamSize s.regs.oam
  pal : Memory.Fits Config.paletteSize s.regs.pal
  palAliases : PaletteAliasesUnused s.regs.pal
  mapper : s.mapper.Fits

/-- The pattern tables are ROM: a Data write changes no pattern byte (R79, R185). -/
abbrev Mapper.PatternRom (m : Mapper) : Prop :=
  match m with
  | .refNROM n => n.chrWritable = false
  | .external _ => False

/-- Every filled tile equals the decode of the mapper's present bytes (R44 f, R185). -/
def State.CacheFaithful (s : State) : Prop :=
  ∀ (half : BitVec 1) (id : Byte) (t : Tile),
    s.tileCache[tileKey half id] = some t → t = fetchTile s.mapper half id

/-- Screen pixel (x, y) lies in sprite 0's 8x8 footprint and on the screen, and sprite 0's pixel there, with
its flips, is opaque (R204). -/
def State.SpriteOpaque (s : State) (x y : Nat) : Prop :=
  let top := (slotByte s 0 0).toNat + 1
  let left := (slotByte s 0 3).toNat
  let flips := slotByte s 0 2
  (top ≤ y ∧ y < top + 8 ∧ y < 240) ∧ (left ≤ x ∧ x < left + 8 ∧ x < 256) ∧
    tilePixel (tileValue s s.regs.ctrl.sprTable (slotByte s 0 1))
      (if flips.getLsbD 7 then 7 - (y - top) else y - top)
      (if flips.getLsbD 6 then 7 - (x - left) else x - left) ≠ 0#2

/-- Screen pixel (x, y) is opaque in both layers (R204): sprite 0's pixel there is, and so is the
background's. -/
def State.DoublyOpaque (s : State) (x y : Nat) : Prop :=
  s.SpriteOpaque x y ∧
    tilePixel (tileValue s s.regs.ctrl.bgTable (gridCell s.grid (y / 8) (x / 8)).tileId)
      (y % 8) (x % 8) ≠ 0#2

/-- No pixel before (x, y) in raster order is opaque in both layers (R204). -/
def State.NoHitBefore (s : State) (x y : Nat) : Prop :=
  ∀ x' y', s.DoublyOpaque x' y' → y * 341 + x ≤ y' * 341 + x'

/-- The tiles DRAW's prediction looks up (R207): sprite 0's, and the background tile under each of its opaque
on-screen pixels up to the first that is opaque in both layers. -/
def State.DrawLooksUp (s : State) (half : BitVec 1) (id : Byte) : Prop :=
  (half = s.regs.ctrl.sprTable ∧ id = slotByte s 0 1) ∨
    ∃ x y, s.SpriteOpaque x y ∧ s.NoHitBefore x y ∧ half = s.regs.ctrl.bgTable ∧
      id = (gridCell s.grid (y / 8) (x / 8)).tileId

/-- The cache of `t` is that of `s` after the tiles of `looked` were looked up and no other (R180): each of
them holds what Tile returns in `s`, every other entry is as it was. -/
def CacheFilled (looked : BitVec 1 → Byte → Prop) (s t : State) : Prop :=
  ∀ half id,
    (looked half id → t.tileCache[tileKey half id] = some (tileValue s half id)) ∧
      (¬ looked half id → t.tileCache[tileKey half id] = s.tileCache[tileKey half id])

/-- A core as RESET and power-up leave it (R45): every component but the contents of `grid` and `sprites`,
which R45 leaves unspecified. -/
structure State.FreshCore (s : State) : Prop where
  cycle : s.regs.cycle = 0
  frame : s.regs.frame = 0
  nextAction : s.regs.nextAction = .vblankStart
  nextActionCycle : s.regs.nextActionCycle = s.params.vblankStartCycle
  ctrl : s.regs.ctrl = ⟨0#2, false, 0#1, 0#1, false, false, false⟩
  mask : s.regs.mask = ⟨false, false, false, false, false, false, false, false⟩
  stat : s.regs.stat = ⟨false, false, false⟩
  latch : s.regs.latch = 0#8
  oamAddr : s.regs.oamAddr = 0#8
  oam : ∀ i, oamByte s i = 0#8
  vramAddr : s.regs.vramAddr = 0#14
  scroll : s.regs.scrollX = 0#8 ∧ s.regs.scrollY = 0#8
  toggles : s.regs.nextScroll = false ∧ s.regs.nextAddr = false
  readBuf : s.regs.readBuf = 0#8
  pal : ∀ i, Memory.read s.regs.pal i = 0#8
  nmiPending : s.regs.nmiPending = false
  tileCache : ∀ k : Fin 512, s.tileCache[k] = none
  gridValid : s.gridValid = false
  running : s.Running

/-- The grid `g` shows nametable `n` of mapper `m`: every cell holds its tile byte and the field of its
attribute byte (R109, R113, R191). -/
def GridShows (m : Mapper) (n : Bits2) (g : Grid) : Prop :=
  ∀ row col : Nat, row < 30 → col < 32 →
    (gridCell g row col).tileId =
        ppuRead m (BitVec.ofNat 14 (0x2000 + 0x400 * n.toNat + row * 32 + col)) ∧
      (gridCell g row col).palSel.toNat =
        (ppuRead m (BitVec.ofNat 14
          (0x2000 + 0x400 * n.toNat + 0x3C0 + row / 4 * 8 + col / 4))).toNat /
          2 ^ (2 * (col / 2 % 2) + 4 * (row / 2 % 2)) % 4

/-- The tile `t` is the decode of the sixteen bytes the mapper `m` holds for (half, id) (R112, R181). -/
def TileShows (m : Mapper) (half : BitVec 1) (id : Byte) (t : Tile) : Prop :=
  ∀ r c : Nat, r < 8 → c < 8 →
    (tilePixel t r c).toNat =
      (ppuRead m (BitVec.ofNat 14 (half.toNat * 0x1000 + id.toNat * 16 + r))).toNat /
          2 ^ (7 - c) % 2 +
        2 * ((ppuRead m (BitVec.ofNat 14 (half.toNat * 0x1000 + id.toNat * 16 + 8 + r))).toNat /
          2 ^ (7 - c) % 2)

/-- The record `p` is the decode of OAM slot `k`, its rows taken from tile `t` with the flips (R193). -/
structure SpriteShows (s : State) (k : Nat) (t : Tile) (p : Sprite) : Prop where
  yTop : p.yTop.toNat = (oamByte s (4 * k)).toNat + 1
  tileId : p.tileId = oamByte s (4 * k + 1)
  palSel : p.palSel.toNat = (oamByte s (4 * k + 2)).toNat % 4
  priority : p.priority = (oamByte s (4 * k + 2)).getLsbD 5
  flipH : p.flipH = (oamByte s (4 * k + 2)).getLsbD 6
  flipV : p.flipV = (oamByte s (4 * k + 2)).getLsbD 7
  x : p.x = oamByte s (4 * k + 3)
  rows : ∀ r c : Fin 8, (p.rows[r])[c] =
    tilePixel t (if p.flipV then 7 - r.val else r.val) (if p.flipH then 7 - c.val else c.val)

/-- `t` holds what the render pipeline computes from `s` (R191, R193): the grid of the present nametable, every
slot's record, and in the cache the tiles the 64 slots name. -/
structure Rendered (s t : State) : Prop where
  grid : GridShows s.mapper s.regs.ctrl.ntBase t.grid
  sprites : ∀ k : Fin 64, SpriteShows s k.val
    (tileValue s s.regs.ctrl.sprTable (oamByte s (4 * k.val + 1))) t.sprites[k]
  cache : CacheFilled
    (fun half id => half = s.regs.ctrl.sprTable ∧ ∃ k : Fin 64, id = oamByte s (4 * k.val + 1)) s t

/-- The sixteen bus transactions. -/
def isBus : Instr → Bool
  | .rd0 | .rd1 | .rd2 | .rd3 | .rd4 | .rd5 | .rd6 | .rd7 => true
  | .wr0 _ | .wr1 _ | .wr2 _ | .wr3 _ | .wr4 _ | .wr5 _ | .wr6 _ | .wr7 _ => true
  | .advance _ | .oamdma _ _ | .pollnmi | .reset | .chrremap | .tileq _ _ => false
  | .vblankStart | .vblankEnd | .draw | .sprite0Hit => false

/-- The data byte of a bus write. -/
def busWriteData : Instr → Option Byte
  | .wr0 d | .wr1 d | .wr2 d | .wr3 d | .wr4 d | .wr5 d | .wr6 d | .wr7 d => some d
  | .rd0 | .rd1 | .rd2 | .rd3 | .rd4 | .rd5 | .rd6 | .rd7 => none
  | .advance _ | .oamdma _ _ | .pollnmi | .reset | .chrremap | .tileq _ _ => none
  | .vblankStart | .vblankEnd | .draw | .sprite0Hit => none

/-- The scroll bytes replaced, in the registers and in a halt's snapshot. -/
def State.withScroll (x y : Byte) (s : State) : State :=
  { s with
    regs := { s.regs with scrollX := x, scrollY := y }
    run := match s.run with
      | .running => .running
      | .halted c r => .halted c { r with scrollX := x, scrollY := y } }

/-- The same change of state after a step that answers a next state. -/
def onNext (f : State → State) : Result → Result
  | .next s => .next (f s)
  | .fault e => .fault e
  | .refused e => .refused e

/-- Several instructions in order, stopping at the first fault or refusal. -/
def execAll : List Instr → State → Result
  | [], s => .next s
  | i :: rest, s =>
    match exec i s with
    | .next t => execAll rest t
    | .fault f => .fault f
    | .refused r => .refused r

end Sys2Proof.Machine
end

