-- ==== Sys2Proof/Certificates/Slice0/Obligations.lean ====
section
/-! DEFINITION. The statements for the provers. A docstring names the rules of spec/ it formalises; where a
clause rests on a decision D<n> of 92_eei_decisions.md or on a log entry, it says so. -/

open Sys2Proof Sys2Proof.Machine

/-! ## Encoding -/

/-- Decoding the encoding of every well-formed instruction gives it back, every operand at every value
(R101 to R103; the word's layout is decision D1). -/
def Obligations.EncodeThenDecodeIsIdentity : Prop :=
  ∀ i : Instr, wellFormed i = true → decode (encode i) = .ok i

/-- Words written out in R118 (decision D1) decode to the commands it names; the four event codes decode
to the four actions (R103); a reserved tag is refused (R117 a). -/
def Obligations.SpecWordsDecode : Prop :=
  decode (.command ⟨0x0890#16, 0, []⟩) = .ok (.wr0 0x90#8) ∧
    decode (.command ⟨0x0200#16, 0, []⟩) = .ok .rd2 ∧
    decode (.command ⟨0x1000#16, 82182, []⟩) = .ok (.advance 82182) ∧
    decode (.command ⟨0x2002#16, 0, List.replicate 256 7#8⟩) =
      .ok (.oamdma 2#8 (List.replicate 256 7#8)) ∧
    decode (.command ⟨0x3000#16, 0, []⟩) = .ok .pollnmi ∧
    decode (.command ⟨0x4000#16, 0, []⟩) = .ok .reset ∧
    decode (.command ⟨0x5000#16, 0, []⟩) = .ok .chrremap ∧
    decode (.command ⟨0x6124#16, 0, []⟩) = .ok (.tileq 1#1 0x24#8) ∧
    decode (.event 0#2) = .ok .vblankStart ∧ decode (.event 1#2) = .ok .vblankEnd ∧
    decode (.event 2#2) = .ok .draw ∧ decode (.event 3#2) = .ok .sprite0Hit ∧
    decode (.command ⟨0x7000#16, 0, []⟩) = .error (.reservedTag 7#4)

/-- Every command word, by its fields as numbers (R101, R102; decision D1): the tag is `w / 4096`, a BUS
word reads or writes register `w / 256 mod 8` by bit 11, every other tag selects its command whatever the
bits it does not use, tags 7 to 15 select none (R117 a), and neither does an OAMDMA word whose source is not
256 bytes (the model's choice, log 8). -/
def Obligations.EveryWordDecodesByItsFields : Prop :=
  ∀ (w : CmdWord) (n : Nat) (src : List Byte),
    let d : Byte := BitVec.ofNat 8 (w.toNat % 256)
    let reg := w.toNat / 256 % 8
    (w.toNat / 4096 = 0 → w.toNat / 2048 % 2 = 0 →
        decodeCommand ⟨w, n, src⟩ =
          .ok ([Instr.rd0, .rd1, .rd2, .rd3, .rd4, .rd5, .rd6, .rd7].getD reg .rd0)) ∧
      (w.toNat / 4096 = 0 → w.toNat / 2048 % 2 = 1 →
        decodeCommand ⟨w, n, src⟩ =
          .ok ([Instr.wr0 d, .wr1 d, .wr2 d, .wr3 d, .wr4 d, .wr5 d, .wr6 d, .wr7 d].getD reg
            (.wr0 d))) ∧
      (w.toNat / 4096 = 1 → decodeCommand ⟨w, n, src⟩ = .ok (.advance n)) ∧
      (w.toNat / 4096 = 2 → src.length = 256 → decodeCommand ⟨w, n, src⟩ = .ok (.oamdma d src)) ∧
      (w.toNat / 4096 = 2 → src.length ≠ 256 →
        decodeCommand ⟨w, n, src⟩ = .error (.sourceLength src.length)) ∧
      (w.toNat / 4096 = 3 → decodeCommand ⟨w, n, src⟩ = .ok .pollnmi) ∧
      (w.toNat / 4096 = 4 → decodeCommand ⟨w, n, src⟩ = .ok .reset) ∧
      (w.toNat / 4096 = 5 → decodeCommand ⟨w, n, src⟩ = .ok .chrremap) ∧
      (w.toNat / 4096 = 6 → decodeCommand ⟨w, n, src⟩ =
        .ok (.tileq (BitVec.ofNat 1 (w.toNat / 256 % 2)) d)) ∧
      (7 ≤ w.toNat / 4096 →
        decodeCommand ⟨w, n, src⟩ = .error (.reservedTag (BitVec.ofNat 4 (w.toNat / 4096))))

/-! ## The step -/

/-- A step runs the oldest waiting request's instruction, the request taken off the queue (R9, R84 a; the
queue is the model's own, log 5); with nothing waiting the machine stays (R240). -/
def Obligations.StepRunsTheOldestRequest : Prop :=
  (∀ (s : State) (q : Request) (rest : List Request) (i : Instr),
      s.requests = q :: rest → decodeRequest q = .ok i →
      step s = exec i { s with requests := rest }) ∧
    ∀ s : State, s.requests = [] → step s = .next s

/-- An ADVANCE that brings the count exactly to the outstanding action's cycle runs that action's
instruction, and nothing else, on the state whose `cycle` is the action's own (R130, R131): so a step
runs the instruction its event code decodes to. -/
def Obligations.StepRunsTheDueAction : Prop :=
  ∀ (s : State) (c : Command) (rest : List Request),
    s.requests = .command c :: rest → decodeCommand c = .ok (.advance c.n) → s.Running →
    s.regs.cycle + c.n = s.regs.nextActionCycle →
    decode (.event (codeOfAction s.regs.nextAction)) = .ok (instrOfAction s.regs.nextAction) ∧
      step s = exec (instrOfAction s.regs.nextAction)
        { s with
          requests := rest
          regs := { s.regs with cycle := s.regs.nextActionCycle % 89342 } }

/-- "A model whose bus command takes a natural number must halt with F3 on 8 and above, before any other
effect" (R223): a bus read or write of such an index leaves every component as it was, but for `run`,
which records the index; and no command word can express it. -/
def Obligations.RegisterIndexOutOfRangeHalts : Prop :=
  (∀ (s : State) (rest : List Request) (index : Nat) (d : Byte), 8 ≤ index → s.Running →
      s.requests = .busRead index :: rest ∨ s.requests = .busWrite index d :: rest →
      step s = .next { s with
        requests := rest
        run := .halted (.badRegisterIndex index) s.regs
        reply := none }) ∧
    ∀ (c : Command) (index : Nat), decodeCommand c ≠ .error (.registerIndex index)

/-- A command word of a reserved tag is refused by name (R117 a, X5; decision D1), and so is an OAMDMA word
whose source is not 256 bytes, by its length (the model's choice, log 8). -/
def Obligations.ReservedTagIsRefused : Prop :=
  ∀ (s : State) (c : Command) (rest : List Request), s.requests = .command c :: rest →
    (7 ≤ c.word.toNat / 4096 →
      step s = .refused (.reservedTag (BitVec.ofNat 4 (c.word.toNat / 4096)))) ∧
    (c.word.toNat / 4096 = 2 → c.src.length ≠ 256 →
      step s = .refused (.sourceLength c.src.length))

/-! ## Reset -/

/-- The power-up state (R45, R250, R251). The values are the spec's decision D28 (log 9); the default
parameters are those of R7 (D6, log 1). Nothing is claimed of the contents of `grid` and `sprites`, which
R45 leaves unspecified. -/
def Obligations.PowerUpState : Prop :=
  State.reset.FreshCore ∧ State.reset.regs.nextActionCycle = 82182 ∧ State.reset.params.Ok

/-- RESET, from any state, Halted included: a fresh core, returning nothing; the mapper, the frames
already presented, the parameters and the waiting commands are not touched (R212, R233; the values are
decision D28, log 9). -/
def Obligations.ResetMakesAFreshCore : Prop :=
  ∀ s : State, ∃ t, exec .reset s = .next t ∧ t.FreshCore ∧ t.mapper = s.mapper ∧
    t.presented = s.presented ∧ t.params = s.params ∧ t.requests = s.requests ∧ t.reply = none

/-! ## Bus reads -/

/-- RD1, RD5, RD6, and RD0 and RD3 alike: the latch is returned and nothing is changed; and the words
`0000 0 rrr xxxxxxxx` that encode them decode to them, whatever the data bits (R152, R156, R157; R151,
R154; R117 d). -/
def Obligations.WriteOnlyReadsReturnTheLatch : Prop :=
  (∀ (s : State) (i : Instr), s.Running → i ∈ [Instr.rd0, .rd1, .rd3, .rd5, .rd6] →
      exec i s = .next { s with reply := some (.byte s.regs.latch) }) ∧
    ∀ (x : Byte) (n : Nat) (src : List Byte),
      decodeCommand ⟨0b0000_0_000#8 ++ x, n, src⟩ = .ok .rd0 ∧
        decodeCommand ⟨0b0000_0_001#8 ++ x, n, src⟩ = .ok .rd1 ∧
        decodeCommand ⟨0b0000_0_011#8 ++ x, n, src⟩ = .ok .rd3 ∧
        decodeCommand ⟨0b0000_0_101#8 ++ x, n, src⟩ = .ok .rd5 ∧
        decodeCommand ⟨0b0000_0_110#8 ++ x, n, src⟩ = .ok .rd6

/-- RD2 (R106, R153; that this read leaves the latch is decision D14, log 23): the byte is the latch's low
five bits under overflow, sprite-0 hit and vblank; vblank and both toggles are cleared and nothing else
changes; a second read at once reports vblank 0. -/
def Obligations.StatusReadReportsAndClears : Prop :=
  ∀ s : State, s.Running → ∃ v : Byte,
    let t : State := { s with
      regs := { s.regs with
        stat := { s.regs.stat with vblank := false }, nextScroll := false, nextAddr := false }
      reply := some (.byte v) }
    exec .rd2 s = .next t ∧
      v.toNat = s.regs.latch.toNat % 32 + 32 * s.regs.stat.overflow.toNat +
        64 * s.regs.stat.spr0Hit.toNat + 128 * s.regs.stat.vblank.toNat ∧
      ∃ (u : State) (v' : Byte), exec .rd2 t = .next u ∧ u.reply = some (.byte v') ∧
        v'.toNat < 128

/-- RD4 (R155; that a read does not move `oamAddr` is decision D15): the byte of OAM at `oamAddr`, nothing
changed. -/
def Obligations.OamDataReadReturnsTheByte : Prop :=
  ∀ s : State, s.Running →
    exec .rd4 s = .next { s with reply := some (.byte (oamByte s s.regs.oamAddr.toNat)) }

/-- RD7 (R158; the refill under a palette address is decision D16, the wrap decision D13): a palette byte
at once or else the buffer, the buffer refilled from the mapper, the pointer advanced by 1 or 32 modulo
0x4000, nothing else changed. -/
def Obligations.DataReadIsOneBehind : Prop :=
  ∀ s : State, s.Running →
    let a := s.regs.vramAddr
    ∃ (t : State) (v : Byte), exec .rd7 s = .next t ∧
      t = { s with
        regs := { s.regs with readBuf := t.regs.readBuf, vramAddr := t.regs.vramAddr }
        reply := some (.byte v) } ∧
      t.regs.vramAddr.toNat = (a.toNat + if s.regs.ctrl.incr32 then 32 else 1) % 0x4000 ∧
      (a.toNat < 0x3F00 → v = s.regs.readBuf ∧ t.regs.readBuf = ppuRead s.mapper a) ∧
      (0x3F00 ≤ a.toNat →
        v = vramRead s a ∧ t.regs.readBuf = ppuRead s.mapper (BitVec.ofNat 14 (a.toNat - 0x1000)))

/-! ## Bus writes -/

/-- Every bus write sets the latch to the byte written, whatever register it goes to and whatever else it
does, a halting Control write included (R150, R30). -/
def Obligations.EveryBusWriteSetsTheLatch : Prop :=
  ∀ (s : State) (i : Instr) (d : Byte), s.Running → busWriteData i = some d →
    ∃ t, exec i s = .next t ∧ t.regs.latch = d ∧ t.reply = none

/-- WR0 with bit 6 clear (R159; bit positions are decision D3): the fields by value, the grid invalidated
exactly by a change of ntBase or bgTable (R196), everything else as it was; the NMI flag too (decision
D27). -/
def Obligations.ControlWriteDecodesTheByte : Prop :=
  ∀ (s : State) (d : Byte), s.Running → d.toNat / 64 % 2 = 0 →
    ∃ (c : Ctrl) (valid : Bool),
      exec (.wr0 d) s = .next { s with
        regs := { s.regs with latch := d, ctrl := c }, gridValid := valid, reply := none } ∧
      c.ntBase.toNat = d.toNat % 4 ∧ c.incr32.toNat = d.toNat / 4 % 2 ∧
      c.sprTable.toNat = d.toNat / 8 % 2 ∧ c.bgTable.toNat = d.toNat / 16 % 2 ∧
      c.sprSize.toNat = d.toNat / 32 % 2 ∧ c.nmiEnable.toNat = d.toNat / 128 % 2 ∧
      c.masterSlave = s.regs.ctrl.masterSlave ∧
      (valid = true ↔ s.gridValid = true ∧ c.ntBase = s.regs.ctrl.ntBase ∧
        c.bgTable = s.regs.ctrl.bgTable)

/-- F1 (R221, R159): a Control byte with bit 6 set halts after the latch and before any field, and no other
instruction can raise it. That master/slave is bit 6 is decision D3 (log 22, PRESUMED); that the latch is
updated first is decision D30 (log 23). -/
def Obligations.MasterSlaveBitHalts : Prop :=
  (∀ (s : State) (d : Byte), s.Running → d.toNat / 64 % 2 = 1 →
      exec (.wr0 d) s = .next { s with
        regs := { s.regs with latch := d }
        run := .halted .masterSlaveSet { s.regs with latch := d }
        reply := none }) ∧
    ∀ (i : Instr) (s t : State) (r : Regs), s.Running → exec i s = .next t →
      t.run = .halted .masterSlaveSet r → ∃ d : Byte, i = .wr0 d ∧ d.toNat / 64 % 2 = 1

/-- WR1 (R160; bit positions are decision D4): the eight fields by value, nothing else. -/
def Obligations.MaskWriteDecodesTheByte : Prop :=
  ∀ (s : State) (d : Byte), s.Running → ∃ m : Mask,
    exec (.wr1 d) s = .next { s with
      regs := { s.regs with latch := d, mask := m }, reply := none } ∧
    d.toNat = m.gray.toNat + 2 * m.leftBg.toNat + 4 * m.leftSpr.toNat + 8 * m.showBg.toNat +
      16 * m.showSpr.toNat + 32 * m.emphR.toNat + 64 * m.emphG.toNat + 128 * m.emphB.toNat

/-- WR2, encoded `0000 1 010 dddddddd` (R161): the latch and nothing else. -/
def Obligations.StatusWriteOnlyLatches : Prop :=
  (∀ (s : State) (d : Byte), s.Running →
      exec (.wr2 d) s = .next { s with regs := { s.regs with latch := d }, reply := none }) ∧
    ∀ (d : Byte) (n : Nat) (src : List Byte),
      decodeCommand ⟨0b0000_1_010#8 ++ d, n, src⟩ = .ok (.wr2 d)

/-- WR3, encoded `0000 1 011 dddddddd` (R162): the latch and `oamAddr`, any value, nothing else. -/
def Obligations.OamAddressWriteSetsThePointer : Prop :=
  (∀ (s : State) (d : Byte), s.Running →
      exec (.wr3 d) s = .next { s with
        regs := { s.regs with latch := d, oamAddr := d }, reply := none }) ∧
    ∀ (d : Byte) (n : Nat) (src : List Byte),
      decodeCommand ⟨0b0000_1_011#8 ++ d, n, src⟩ = .ok (.wr3 d)

/-- WR4 (R163): the byte goes to `oam[oamAddr]`, every other byte of OAM is as it was, `oamAddr` moves by
one modulo 256, nothing else changes. -/
def Obligations.OamDataWriteStoresAndIncrements : Prop :=
  ∀ (s : State) (d : Byte), s.Running → Memory.wf s.regs.oam = true →
    ∃ t, exec (.wr4 d) s = .next t ∧
      t = { s with
        regs := { s.regs with latch := d, oam := t.regs.oam, oamAddr := t.regs.oamAddr }
        reply := none } ∧
      t.regs.oamAddr.toNat = (s.regs.oamAddr.toNat + 1) % 256 ∧
      oamByte t s.regs.oamAddr.toNat = d ∧
      ∀ a, a ≠ s.regs.oamAddr.toNat → oamByte t a = oamByte s a

/-- WR5 (R164; that `nextAddr` is left alone is decision D11): the first write of a pair sets `scrollX`, the
second `scrollY`, each flips `nextScroll`, nothing else changes. -/
def Obligations.ScrollWriteSetsOneComponent : Prop :=
  ∀ (s : State) (d : Byte), s.Running →
    (s.regs.nextScroll = false → exec (.wr5 d) s = .next { s with
      regs := { s.regs with latch := d, scrollX := d, nextScroll := true }, reply := none }) ∧
    (s.regs.nextScroll = true → exec (.wr5 d) s = .next { s with
      regs := { s.regs with latch := d, scrollY := d, nextScroll := false }, reply := none })

/-- The scroll pair (R111): `nextScroll` 0 selects `scrollX`, 1 `scrollY`, each taking the whole byte; of two
writes from `nextScroll = 0` the first binds to `scrollX` and the second to `scrollY`, and the toggle is
back at 0; so writing `A` then `B` differs from `B` then `A` unless they are equal. -/
def Obligations.ScrollPairBindsFirstToX : Prop :=
  (∀ (s : State) (d : Byte), s.Running → ∃ t, exec (.wr5 d) s = .next t ∧
      (s.regs.nextScroll = false → t.regs.scrollX = d ∧ t.regs.scrollY = s.regs.scrollY) ∧
      (s.regs.nextScroll = true → t.regs.scrollY = d ∧ t.regs.scrollX = s.regs.scrollX)) ∧
    (∀ (s : State) (a b : Byte), s.Running → s.regs.nextScroll = false →
      ∃ t, execAll [.wr5 a, .wr5 b] s = .next t ∧ t.regs.scrollX = a ∧ t.regs.scrollY = b ∧
        t.regs.nextScroll = false) ∧
    ∀ (s t u : State) (a b : Byte), s.Running → s.regs.nextScroll = false → a ≠ b →
      execAll [.wr5 a, .wr5 b] s = .next t → execAll [.wr5 b, .wr5 a] s = .next u → t ≠ u

/-- WR6 (R165, R110; that the first write acts at once is decision D12, that `nextScroll` is left alone
D11): the first write replaces bits 13:8 by the byte's low six bits, the second bits 7:0; the toggle flips
and nothing else changes. -/
def Obligations.AddressWriteReplacesHalf : Prop :=
  ∀ (s : State) (d : Byte), s.Running → ∃ v : VAddr,
    exec (.wr6 d) s = .next { s with
      regs := { s.regs with latch := d, vramAddr := v, nextAddr := !s.regs.nextAddr }
      reply := none } ∧
    (s.regs.nextAddr = false → v.toNat = d.toNat % 64 * 256 + s.regs.vramAddr.toNat % 256) ∧
    (s.regs.nextAddr = true → v.toNat = s.regs.vramAddr.toNat / 256 * 256 + d.toNat)

/-- The address pair (R110): with `nextAddr = 0` a write to register 6 replaces bits 13:8 by the byte's low
six bits and keeps bits 7:0, with `nextAddr = 1` it replaces bits 7:0 and keeps bits 13:8; two writes from
`nextAddr = 0` form the 14-bit pointer, the high byte masked to six bits, and leave the toggle at 0. -/
def Obligations.AddressPairFormsThePointer : Prop :=
  (∀ (s : State) (d : Byte), s.Running → ∃ t, exec (.wr6 d) s = .next t ∧
      (s.regs.nextAddr = false → t.regs.vramAddr.toNat / 256 = d.toNat % 64 ∧
        t.regs.vramAddr.toNat % 256 = s.regs.vramAddr.toNat % 256) ∧
      (s.regs.nextAddr = true → t.regs.vramAddr.toNat % 256 = d.toNat ∧
        t.regs.vramAddr.toNat / 256 = s.regs.vramAddr.toNat / 256)) ∧
    ∀ (s : State) (hi lo : Byte), s.Running → s.regs.nextAddr = false →
      ∃ t, execAll [.wr6 hi, .wr6 lo] s = .next t ∧
        t.regs.vramAddr.toNat = hi.toNat % 64 * 256 + lo.toNat ∧ t.regs.nextAddr = false

/-- WR7 (R166, R77; the wrap is decision D13, that no cache is touched D40): below 0x3F00 the mapper takes
the byte and the palette is as it was; at 0x3F00 and above the palette cell takes it, every address that
reaches another cell reads as before, and the mapper is as it was. The pointer advances by 1 or 32 modulo
0x4000; nothing else changes. -/
def Obligations.DataWriteStoresThrough : Prop :=
  ∀ (s : State) (d : Byte), s.Running → Memory.wf s.regs.pal = true →
    let a := s.regs.vramAddr
    ∃ t, exec (.wr7 d) s = .next t ∧
      t = { s with
        regs := { s.regs with latch := d, pal := t.regs.pal, vramAddr := t.regs.vramAddr }
        mapper := t.mapper, reply := none } ∧
      t.regs.vramAddr.toNat = (a.toNat + if s.regs.ctrl.incr32 then 32 else 1) % 0x4000 ∧
      (a.toNat < 0x3F00 → t.mapper = ppuWrite s.mapper a d ∧ t.regs.pal = s.regs.pal) ∧
      (0x3F00 ≤ a.toNat → t.mapper = s.mapper ∧ vramRead t a = d ∧
        ∀ b : VAddr, 0x3F00 ≤ b.toNat → palIndex b ≠ palIndex a → vramRead t b = vramRead s b)

/-- The reference mapper (R79, test vectors only): a Data write below 0x2000 that pattern memory does not
take changes no byte; any other write below 0x3F00 is read back at its address, and every address that
does not reach the same cell reads as before. -/
def Obligations.ReferenceMapperStores : Prop :=
  ∀ (n : RefNROM) (a b : VAddr) (d : Byte), Memory.wf n.chr = true → Memory.wf n.nt = true →
    a.toNat < 0x3F00 →
    (a.toNat < 0x2000 → n.chrWritable = false →
      ppuRead (ppuWrite (.refNROM n) a d) b = ppuRead (.refNROM n) b) ∧
    (a.toNat < 0x2000 → n.chrWritable = true →
      ppuRead (ppuWrite (.refNROM n) a d) b = if b = a then d else ppuRead (.refNROM n) b) ∧
    (0x2000 ≤ a.toNat →
      ppuRead (ppuWrite (.refNROM n) a d) a = d ∧
      (b.toNat < 0x2000 ∨ nromNtIndex n.mirroring b.toNat ≠ nromNtIndex n.mirroring a.toNat →
        ppuRead (ppuWrite (.refNROM n) a d) b = ppuRead (.refNROM n) b))

/-- PalIndex (R75): only the low five bits count, with 0x10, 0x14, 0x18, 0x1C sent to 0x00, 0x04, 0x08,
0x0C; hence palette reads repeat every 32 bytes and the aliased pairs read alike. -/
def Obligations.PaletteIndexAliases : Prop :=
  (∀ a : VAddr, 0x3F00 ≤ a.toNat → (palIndex a).toNat =
      if a.toNat / 16 % 2 = 1 ∧ a.toNat % 4 = 0 then a.toNat % 16 else a.toNat % 32) ∧
    (∀ (s : State) (a b : VAddr), 0x3F00 ≤ a.toNat → 0x3F00 ≤ b.toNat →
      a.toNat % 32 = b.toNat % 32 → vramRead s a = vramRead s b) ∧
    ∀ (s : State) (k : Nat), k < 4 →
      vramRead s (BitVec.ofNat 14 (0x3F10 + 4 * k)) = vramRead s (BitVec.ofNat 14 (0x3F00 + 4 * k))

/-- The frame of the sixteen bus commands (R168's last sentence): none changes `cycle`, `frame`,
`nextAction`, `nextActionCycle`, `stat.spr0Hit`, `stat.overflow`, `nmiPending`, `tileCache`, `grid` or
`sprites`, whether it halts or not. -/
def Obligations.BusCommandsKeepTheClockAndCaches : Prop :=
  ∀ (i : Instr) (s : State), isBus i = true → ∃ t, exec i s = .next t ∧
    t.regs.cycle = s.regs.cycle ∧ t.regs.frame = s.regs.frame ∧
    t.regs.nextAction = s.regs.nextAction ∧ t.regs.nextActionCycle = s.regs.nextActionCycle ∧
    t.regs.stat.spr0Hit = s.regs.stat.spr0Hit ∧ t.regs.stat.overflow = s.regs.stat.overflow ∧
    t.regs.nmiPending = s.regs.nmiPending ∧ t.tileCache = s.tileCache ∧ t.grid = s.grid ∧
    t.sprites = s.sprites

/-! ## ADVANCE and the clock -/

/-- ADVANCE's loop (R130, R131), from any Running state: with no action due the cycle moves by `n`; with
one due it runs on the state whose `cycle` is the action's own, and ADVANCE goes on with the remainder. -/
def Obligations.AdvanceFollowsTheLoop : Prop :=
  ∀ (n : Nat) (s : State), s.Running →
    (s.regs.cycle + n < s.regs.nextActionCycle →
      exec (.advance n) s = .next { s with
        regs := { s.regs with cycle := (s.regs.cycle + n) % 89342 }, reply := none }) ∧
    (s.regs.nextActionCycle ≤ s.regs.cycle + n →
      ∃ t, exec (instrOfAction s.regs.nextAction)
          { s with regs := { s.regs with cycle := s.regs.nextActionCycle % 89342 } } = .next t ∧
        exec (.advance n) s =
          exec (.advance (s.regs.cycle + n - s.regs.nextActionCycle)) t)

/-- Associativity (R139): "for any split `a + b = n`, calling `advance(a); advance(b)` from a given state
yields the same resulting state as `advance(n)`", across halts too. The premise is R25's range of
`nextActionCycle`, which the invariant of EveryStepKeepsTheInvariant holds. -/
def Obligations.AdvanceIsAssociative : Prop :=
  ∀ (a b : Nat) (s : State), (s.Running → s.regs.nextActionCycle ≤ 89342) →
    ∃ t, exec (.advance a) s = .next t ∧ exec (.advance b) t = exec (.advance (a + b)) s

/-- ADVANCE answers a next state for every `n`, and accounts for every cycle: unless an action halted, the
absolute time `frame * 89342 + cycle` has grown by exactly `n` (R140, R141 "one frame is always exactly
89342 cycles"; that DRAW ends the frame is decision D7). -/
def Obligations.AdvanceAccountsForEveryCycle : Prop :=
  ∀ (n : Nat) (s : State), s.Inv → s.Running → ∃ t, exec (.advance n) s = .next t ∧
    (t.Running →
      t.regs.frame * 89342 + t.regs.cycle = s.regs.frame * 89342 + s.regs.cycle + n)

/-! ## The event actions -/

/-- VBLANK_START (R133): sets the flag, sets `nmiPending` if enabled and otherwise leaves it, schedules
VBLANK_END; nothing else. -/
def Obligations.VblankStartRaisesFlagAndNmi : Prop :=
  ∀ s : State, s.Running → s.regs.cycle < s.params.vblankEndCycle →
    s.params.vblankEndCycle ≤ 89342 →
    exec .vblankStart s = .next { s with
      regs := { s.regs with
        stat := { s.regs.stat with vblank := true }
        nmiPending := if s.regs.ctrl.nmiEnable then true else s.regs.nmiPending
        nextAction := .vblankEnd
        nextActionCycle := s.params.vblankEndCycle }
      reply := none }

/-- VBLANK_END (R134; that it clears vblank is decision D9, its place in the chain D7, the sprites D20, the
unscrolled nametable D18, log 23; the nametable and attribute addresses are D22 and the sprite attribute
bits D5, log 22, PRESUMED): with a supported mirroring it rebuilds the grid and the sprites, clears both
flags and schedules DRAW for the frame's end; the cache then holds the tiles the 64 slots name and is
otherwise as it was (R180, R193), as are registers, mapper and frames presented. -/
def Obligations.VblankEndRebuildsAndClears : Prop :=
  ∀ s : State, s.Running → s.regs.cycle < 89342 → mirroringOf s.mapper ≠ .other →
    ∃ t, exec .vblankEnd s = .next t ∧
      t = { s with
        regs := { s.regs with
          stat := { s.regs.stat with spr0Hit := false, vblank := false }
          nextAction := .draw, nextActionCycle := 89342 }
        tileCache := t.tileCache, grid := t.grid, gridValid := true, sprites := t.sprites
        reply := none } ∧
      Rendered s t

/-- U2 (R226, R194; the place of the test is decision D38): with any other mirroring VBLANK_END halts before
it changes anything, and DRAW with an invalid grid halts after counting the frame and before presenting
it (R231 b); with a valid grid DRAW does not test the mode (R135): it presents the frame and U2 is not
raised. -/
def Obligations.UnsupportedMirroringHalts : Prop :=
  ∀ s : State, s.Running → mirroringOf s.mapper = .other →
    exec .vblankEnd s = .next { s with
      run := .halted .unsupportedMirroring s.regs, reply := none } ∧
    (s.gridValid = false →
      exec .draw s = .next { s with
        regs := { s.regs with frame := s.regs.frame + 1 }
        run := .halted .unsupportedMirroring { s.regs with frame := s.regs.frame + 1 }
        reply := none }) ∧
    (s.gridValid = true →
      ∃ t, exec .draw s = .next t ∧
        t.presented = s.presented ++ [⟨s.regs.frame + 1, s.grid, s.sprites⟩] ∧
        ∀ r, t.run ≠ .halted .unsupportedMirroring r)

/-- DRAW with an invalid grid and a supported mirroring (R135, R191, R196; the rebuild is decision D19, the
unscrolled nametable D18, log 23; the nametable and attribute addresses are D22, log 22, PRESUMED): it
first builds the grid of the present nametable, and then is DRAW on that grid. -/
def Obligations.DrawRebuildsAnInvalidGrid : Prop :=
  ∀ s : State, s.Running → s.gridValid = false → mirroringOf s.mapper ≠ .other →
    ∃ g : Grid, GridShows s.mapper s.regs.ctrl.ntBase g ∧
      exec .draw s = exec .draw { s with grid := g, gridValid := true }

/-- DRAW with rendering off or sprite 0 below the screen (R135, R201, R202; decisions D7, D19, D32): the frame is
counted and presented, VBLANK_START is scheduled, the predictor halts in no mode and touches no tile. -/
def Obligations.DrawWithoutPredictionSchedulesVblank : Prop :=
  ∀ s : State, s.Running → s.gridValid = true → s.regs.cycle < s.params.vblankStartCycle →
    s.params.vblankStartCycle ≤ 89342 →
    s.regs.mask.showBg = false ∨ s.regs.mask.showSpr = false ∨ 240 ≤ (oamByte s 0).toNat + 1 →
    exec .draw s = .next { s with
      regs := { s.regs with
        frame := s.regs.frame + 1
        nextAction := .vblankStart
        nextActionCycle := s.params.vblankStartCycle }
      presented := s.presented ++ [⟨s.regs.frame + 1, s.grid, s.sprites⟩]
      reply := none }

/-- U1 (R203, R224; the place of the test is decision D25, the frame's record D32): with both layers shown, sprite 0 on screen and
8x16 sprites selected, DRAW halts after presenting the frame, with the fired action still outstanding. -/
def Obligations.DrawInTallSpriteModeHalts : Prop :=
  ∀ s : State, s.Running → s.gridValid = true → s.regs.mask.showBg = true →
    s.regs.mask.showSpr = true → (oamByte s 0).toNat + 1 < 240 → s.regs.ctrl.sprSize = true →
    exec .draw s = .next { s with
      regs := { s.regs with frame := s.regs.frame + 1 }
      run := .halted .sprite8x16 { s.regs with frame := s.regs.frame + 1 }
      presented := s.presented ++ [⟨s.regs.frame + 1, s.grid, s.sprites⟩]
      reply := none }

/-- The prediction (R204, R205; flips and clipping are decision D24, the unscrolled background D18, DRAW's
place D7, the frame's record D32, log 23; the flip bits 6 and 7 are D5, log 22, PRESUMED): with both layers
shown, 8x8 sprites and sprite 0 on screen, DRAW schedules SPRITE0_HIT at the cycle of the first pixel in
raster order that is opaque in both layers, the least over all such pixels, or VBLANK_START when there is
none; the frame is counted and presented, the cache holds the tiles looked up (R207) and is otherwise as it
was, nothing else changes. -/
def Obligations.DrawPredictsTheFirstHit : Prop :=
  ∀ s : State, s.Running → s.params.Ok → s.regs.cycle = 0 → s.gridValid = true →
    s.regs.mask.showBg = true → s.regs.mask.showSpr = true → (oamByte s 0).toNat + 1 < 240 →
    s.regs.ctrl.sprSize = false →
    ∃ t, exec .draw s = .next t ∧
      t = { s with
        regs := { s.regs with
          frame := s.regs.frame + 1
          nextAction := t.regs.nextAction
          nextActionCycle := t.regs.nextActionCycle }
        tileCache := t.tileCache
        presented := s.presented ++ [⟨s.regs.frame + 1, s.grid, s.sprites⟩]
        reply := none } ∧
      ((∃ x y, s.DoublyOpaque x y ∧ t.regs.nextAction = .sprite0Hit ∧
          t.regs.nextActionCycle = y * 341 + x + s.params.sprite0CycleOffset ∧
          ∀ x' y', s.DoublyOpaque x' y' → y * 341 + x ≤ y' * 341 + x') ∨
        ((∀ x y, ¬ s.DoublyOpaque x y) ∧ t.regs.nextAction = .vblankStart ∧
          t.regs.nextActionCycle = s.params.vblankStartCycle)) ∧
      CacheFilled s.DrawLooksUp s t

/-- SPRITE0_HIT (R136): the flag is set whatever Mask, OAM or Control hold now, VBLANK_START is scheduled,
nothing else changes. -/
def Obligations.Sprite0HitSetsTheFlag : Prop :=
  ∀ s : State, s.Running → s.regs.cycle < s.params.vblankStartCycle →
    s.params.vblankStartCycle ≤ 89342 →
    exec .sprite0Hit s = .next { s with
      regs := { s.regs with
        stat := { s.regs.stat with spr0Hit := true }
        nextAction := .vblankStart
        nextActionCycle := s.params.vblankStartCycle }
      reply := none }

/-- F2 (R222, R132; the upper bound is decision D8; X11) in VBLANK_START, SPRITE0_HIT and VBLANK_END: where
the successor's cycle stands at or before the cycle, or beyond the frame, the action halts after its other
effects, with the fired action still outstanding. DRAW is DrawSchedulingBackwardHalts. What VBLANK_END has
rendered rests on the decisions VblankEndRebuildsAndClears names. -/
def Obligations.SchedulingBackwardHalts : Prop :=
  (∀ s : State, s.Running →
      s.params.vblankEndCycle ≤ s.regs.cycle ∨ 89342 < s.params.vblankEndCycle →
      ∃ r : Regs, r = { s.regs with
          stat := { s.regs.stat with vblank := true }
          nmiPending := if s.regs.ctrl.nmiEnable then true else s.regs.nmiPending } ∧
        exec .vblankStart s = .next { s with
          regs := r, run := .halted .schedulerInvariant r, reply := none }) ∧
    (∀ s : State, s.Running →
      s.params.vblankStartCycle ≤ s.regs.cycle ∨ 89342 < s.params.vblankStartCycle →
      ∃ r : Regs, r = { s.regs with stat := { s.regs.stat with spr0Hit := true } } ∧
        exec .sprite0Hit s = .next { s with
          regs := r, run := .halted .schedulerInvariant r, reply := none }) ∧
    ∀ s : State, s.Running → 89342 ≤ s.regs.cycle → mirroringOf s.mapper ≠ .other →
      ∃ (r : Regs) (t : State),
        r = { s.regs with stat := { s.regs.stat with spr0Hit := false, vblank := false } } ∧
        exec .vblankEnd s = .next t ∧
        t = { s with
          regs := r, run := .halted .schedulerInvariant r
          tileCache := t.tileCache, grid := t.grid, gridValid := true, sprites := t.sprites
          reply := none } ∧
        Rendered s t

/-! ## The other commands -/

/-- OAMDMA (R210; its start at `oamAddr` and the untouched pointer and latch are decision D26): byte `i` of
the source lands at `(oamAddr + i) mod 256` for every `i`, nothing else changes; a source that is not 256
bytes is no command and stops by name (log 8). -/
def Obligations.OamDmaCopiesThePage : Prop :=
  ∀ (s : State) (page : Byte) (src : List Byte),
    (s.Running → Memory.wf s.regs.oam = true → src.length = 256 →
      ∃ t, exec (.oamdma page src) s = .next t ∧
        t = { s with regs := { s.regs with oam := t.regs.oam }, reply := none } ∧
        (∀ i, i < 256 → some (oamByte t ((s.regs.oamAddr.toNat + i) % 256)) = src[i]?) ∧
        ∀ a, 256 ≤ a → oamByte t a = oamByte s a) ∧
    (src.length ≠ 256 → exec (.oamdma page src) s = .fault .malformedSource)

/-- OAMDMA leaves OAM and `oamAddr` as 256 OAM-data writes of the same bytes do (R210, R163, R83; decision
D26's reason). -/
def Obligations.OamDmaEqualsDataWrites : Prop :=
  ∀ (s : State) (page : Byte) (src : List Byte), s.Running → src.length = 256 →
    ∃ t u, exec (.oamdma page src) s = .next t ∧ execAll (src.map .wr4) s = .next u ∧
      u.regs.oam = t.regs.oam ∧ u.regs.oamAddr = t.regs.oamAddr ∧
      t.regs.oamAddr = s.regs.oamAddr

/-- POLLNMI (R211): returns the flag and clears it, nothing else; two polls in a row return the flag, then
0. -/
def Obligations.PollReturnsAndClearsNmi : Prop :=
  ∀ s : State, s.Running →
    let t : State := { s with
      regs := { s.regs with nmiPending := false }, reply := some (.bit s.regs.nmiPending) }
    exec .pollnmi s = .next t ∧ exec .pollnmi t = .next { t with reply := some (.bit false) }

/-- CHRREMAP (R183, R227; decision D33): halts with U3, always, and changes nothing else; the cache is not
emptied. -/
def Obligations.ChrRemapHalts : Prop :=
  ∀ s : State, s.Running →
    exec .chrremap s = .next { s with
      run := .halted .bankedChrInvalidation s.regs, reply := none }

/-- TILEQ (R182, R180; the port is decision D34, the byte layout D21): it returns the cached tile, or on a
miss the decode of the sixteen bytes the mapper holds; that entry then holds what was returned, every
other entry and component is as it was. -/
def Obligations.TileQueryAnswersAndCaches : Prop :=
  ∀ (s : State) (half : BitVec 1) (id : Byte), s.Running →
    ∃ (t : State) (px : Tile), exec (.tileq half id) s = .next t ∧
      t = { s with tileCache := t.tileCache, reply := some (.pixels px) } ∧
      t.tileCache[tileKey half id] = some px ∧
      (∀ half' id', (half', id') ≠ (half, id) →
        t.tileCache[tileKey half' id'] = s.tileCache[tileKey half' id']) ∧
      (∀ px', s.tileCache[tileKey half id] = some px' → px = px') ∧
      (s.tileCache[tileKey half id] = none → TileShows s.mapper half id px)

/-! ## Halts -/

/-- In Halted every well-formed instruction but RESET changes nothing and returns no value (R213; decision
D29). -/
def Obligations.HaltedCommandsChangeNothing : Prop :=
  ∀ (i : Instr) (s : State) (c : HaltCause) (r : Regs), s.run = .halted c r → wellFormed i = true →
    i ≠ .reset → exec i s = .next { s with reply := none }

/-- Halt entry (R225, R232): whichever instruction halts the core, the snapshot is the registers at that
instant, which are still the live registers, and no value is returned. -/
def Obligations.HaltIsPrecise : Prop :=
  ∀ (i : Instr) (s t : State) (c : HaltCause) (r : Regs), s.Running → exec i s = .next t →
    t.run = .halted c r → r = t.regs ∧ t.reply = none

/-- Each cause is raised only where R220's table says: F1 by WR0, U1 and U2 and F2 only inside actions, U3
by CHRREMAP, F3 by no instruction (R221 to R227). -/
def Obligations.HaltCausesHaveTheirSources : Prop :=
  ∀ (i : Instr) (s t : State) (c : HaltCause) (r : Regs), s.Running → exec i s = .next t →
    t.run = .halted c r →
    match c with
    | .masterSlaveSet => ∃ d, i = .wr0 d
    | .schedulerInvariant =>
      (∃ n, i = .advance n) ∨ i ∈ [Instr.vblankStart, .vblankEnd, .draw, .sprite0Hit]
    | .badRegisterIndex _ => False
    | .sprite8x16 => (∃ n, i = .advance n) ∨ i = .draw
    | .unsupportedMirroring => (∃ n, i = .advance n) ∨ i = .vblankEnd ∨ i = .draw
    | .bankedChrInvalidation => i = .chrremap

/-- Only RESET leaves Halted (R233, R42): a step of a Halted machine that ends Running took a request that
decodes to RESET. -/
def Obligations.OnlyResetLeavesHalted : Prop :=
  ∀ (s t : State) (c : HaltCause) (r : Regs), s.run = .halted c r → step s = .next t →
    t.run = .halted c r ∨
      ∃ q rest, s.requests = q :: rest ∧ decodeRequest q = .ok .reset ∧ t.Running

/-! ## Who writes what -/

/-- The mapper's state is changed only by a Data write below 0x3F00 (R43, R74, R235). -/
def Obligations.MapperChangesOnlyByDataWrite : Prop :=
  ∀ (i : Instr) (s t : State), exec i s = .next t → t.mapper ≠ s.mapper →
    ∃ d, i = .wr7 d ∧ s.regs.vramAddr.toNat < 0x3F00

/-- OAM is "mutated only via the OAM address/data registers or the bulk OAM-DMA collaborator call" (R32,
R235), besides RESET; the palette only by a Data write at 0x3F00 and above and RESET (R37); the read
buffer only by a Data read and RESET (R36). -/
def Obligations.MemoriesHaveTheirWriters : Prop :=
  ∀ (i : Instr) (s t : State), exec i s = .next t → i ≠ .reset →
    (t.regs.oam ≠ s.regs.oam → (∃ d, i = .wr4 d) ∨ ∃ page src, i = .oamdma page src) ∧
    (t.regs.pal ≠ s.regs.pal → ∃ d, i = .wr7 d ∧ 0x3F00 ≤ s.regs.vramAddr.toNat) ∧
    (t.regs.readBuf ≠ s.regs.readBuf → i = .rd7)

/-- The NMI flag (R229, R230; decision D27): only VBLANK_START, alone or inside ADVANCE, raises it, and only
when enabled; only POLLNMI and RESET clear it. -/
def Obligations.NmiFlagHasItsWriters : Prop :=
  ∀ (i : Instr) (s t : State), exec i s = .next t →
    (s.regs.nmiPending = false → t.regs.nmiPending = true →
      s.regs.ctrl.nmiEnable = true ∧ ((∃ n, i = .advance n) ∨ i = .vblankStart)) ∧
    (s.regs.nmiPending = true → t.regs.nmiPending = false → i = .pollnmi ∨ i = .reset)

/-- Nothing but RESET empties or refreshes a tile (R184, R39): a filled entry keeps its tile under every
other instruction, ADVANCE across any number of frames included, and RESET leaves every entry none. -/
def Obligations.FilledTilesStayUntilReset : Prop :=
  (∀ (i : Instr) (s t : State) (k : Fin 512) (px : Tile), exec i s = .next t → i ≠ .reset →
      s.tileCache[k] = some px → t.tileCache[k] = some px) ∧
    ∀ (s : State) (k : Fin 512), ∃ t, exec .reset s = .next t ∧ t.tileCache[k] = none

/-- No rule of the core reads the scroll bytes (R34, R206; decision D18): on a state with other scroll
bytes every instruction but a Scroll write and RESET answers the same, with those other bytes. -/
def Obligations.ScrollBytesInfluenceNothing : Prop :=
  ∀ (i : Instr) (s : State) (x y : Byte), (∀ d, i ≠ .wr5 d) → i ≠ .reset →
    exec i (s.withScroll x y) = onNext (State.withScroll x y) (exec i s)

/-! ## Invariants -/

/-- The invariant (R8, R44) holds at power-up. The values are the spec's decision D28 (log 9), the default
cycles D6 (log 1, PRESUMED), the power-up mapper log 3, the canonical form of the memories log 11. -/
def Obligations.PowerUpMeetsTheInvariant : Prop := State.reset.Inv

/-- Every step keeps the invariant: the clock lies before its outstanding action, which lies within the
frame at a cycle of its own (R44 a, g), the master/slave and overflow bits are 0 (R44 b, c), the aliased
palette cells are unused (R44 d), every byte memory has its canonical form and size (log 11), the
parameters satisfy R8. -/
def Obligations.EveryStepKeepsTheInvariant : Prop :=
  ∀ s t : State, s.Inv → step s = .next t → t.Inv

/-- Under the invariant no step raises F2 (R222, R132): "it cannot occur" with R8's constraint. -/
def Obligations.SchedulerHaltIsUnreachable : Prop :=
  ∀ (s t : State) (r : Regs), s.Inv → s.Running → step s = .next t →
    t.run ≠ .halted .schedulerInvariant r

/-- With pattern tables in ROM every filled tile is the decode of the mapper's present bytes, and every step
keeps it so (R185, R44 f): the cache is transparent. -/
def Obligations.RomTilesStayFaithful : Prop :=
  ∀ s t : State, s.mapper.PatternRom → s.CacheFaithful → step s = .next t →
    t.mapper.PatternRom ∧ t.CacheFaithful

/-- A fresh core's cache is faithful (R45), and in a faithful Running state TILEQ returns the decode of the
mapper's present bytes, filled entry or not (R185; the byte layout is decision D21, log 22, PRESUMED). -/
def Obligations.FaithfulCacheIsTransparent : Prop :=
  (∀ s : State, s.FreshCore → s.CacheFaithful) ∧
    ∀ (s : State) (half : BitVec 1) (id : Byte), s.CacheFaithful → s.Running →
      ∃ (t : State) (px : Tile), exec (.tileq half id) s = .next t ∧
        t.reply = some (.pixels px) ∧ TileShows s.mapper half id px

/-! ## F2 in DRAW -/

/-- F2 in DRAW (R132, R135, R222, R231 b; the upper bound is decision D8; what the prediction rests on,
D5, D18, D24, D32, is named at DrawPredictsTheFirstHit): where the cycle DRAW would schedule, VBLANK_START's
or that of a predicted hit, stands at or before the cycle or beyond the frame, it halts after the frame is
counted and presented and the prediction has looked up its tiles, with the fired action still outstanding. -/
def Obligations.DrawSchedulingBackwardHalts : Prop :=
  (∀ s : State, s.Running → s.gridValid = true →
      s.regs.mask.showBg = false ∨ s.regs.mask.showSpr = false ∨ 240 ≤ (oamByte s 0).toNat + 1 →
      s.params.vblankStartCycle ≤ s.regs.cycle ∨ 89342 < s.params.vblankStartCycle →
      ∃ r : Regs, r = { s.regs with frame := s.regs.frame + 1 } ∧
        exec .draw s = .next { s with
          regs := r, run := .halted .schedulerInvariant r
          presented := s.presented ++ [⟨s.regs.frame + 1, s.grid, s.sprites⟩]
          reply := none }) ∧
    ∀ (s : State) (c : Nat), s.Running → s.gridValid = true →
      s.regs.mask.showBg = true → s.regs.mask.showSpr = true → (oamByte s 0).toNat + 1 < 240 →
      s.regs.ctrl.sprSize = false →
      (((∀ x y, ¬ s.DoublyOpaque x y) ∧ c = s.params.vblankStartCycle) ∨
        ∃ x y, s.DoublyOpaque x y ∧ s.NoHitBefore x y ∧
          c = y * 341 + x + s.params.sprite0CycleOffset) →
      c ≤ s.regs.cycle ∨ 89342 < c →
      ∃ (r : Regs) (t : State), r = { s.regs with frame := s.regs.frame + 1 } ∧
        exec .draw s = .next t ∧
        t = { s with
          regs := r, run := .halted .schedulerInvariant r
          tileCache := t.tileCache
          presented := s.presented ++ [⟨s.regs.frame + 1, s.grid, s.sprites⟩]
          reply := none } ∧
        CacheFilled s.DrawLooksUp s t
end

