-- ==== Sys2Proof/Laws/Memory.lean ====
section
/-! SUPPORT. The byte memory: read after write, and the canonical form kept by every operation. -/

namespace Sys2Proof.Machine

open Sys2Proof

theorem wfFrom_mono {lo lo' : Nat} {m : Memory} (hle : lo ≤ lo') (h : Memory.wfFrom lo' m = true) :
    Memory.wfFrom lo m = true := by
  cases m with
  | nil => rfl
  | cons c rest =>
    obtain ⟨k, w⟩ := c
    simp only [Memory.wfFrom, Bool.and_eq_true, decide_eq_true_eq] at h ⊢
    exact ⟨⟨by omega, h.1.2⟩, h.2⟩

/-- Below its first address a canonical memory reads 0. -/
theorem read_of_lt_wfFrom {lo a : Nat} {m : Memory} (h : Memory.wfFrom lo m = true) (ha : a < lo) :
    Memory.read m a = 0#8 := by
  induction m generalizing lo with
  | nil => rfl
  | cons c rest ih =>
    obtain ⟨k, w⟩ := c
    simp only [Memory.wfFrom, Bool.and_eq_true, decide_eq_true_eq] at h
    have hk : k ≠ a := by omega
    simp only [Memory.read, if_neg hk]
    exact ih h.2 (by omega)

/-- Read after write (R32, R37): for a canonical memory, one address changes and no other. -/
theorem read_write_from {lo a v b} {m : Memory} (h : Memory.wfFrom lo m = true) :
    Memory.read (Memory.write m a v) b = if b = a then v else Memory.read m b := by
  induction m generalizing lo with
  | nil =>
    by_cases hv : v = 0#8 <;> by_cases hb : b = a <;>
      simp [Memory.write, Memory.read, hv, hb, eq_comm]
    intro h; exact absurd h.symm hb
  | cons c rest ih =>
    obtain ⟨k, w⟩ := c
    have hwf := h
    simp only [Memory.wfFrom, Bool.and_eq_true, decide_eq_true_eq] at h
    rw [Memory.write]
    split
    · rename_i hlt
      split
      · rename_i hv
        split
        · rename_i hb
          subst hb
          rw [hv, Memory.read, if_neg (by omega)]
          exact read_of_lt_wfFrom h.2 (by omega)
        · rfl
      · by_cases hb : b = a
        · simp [Memory.read, hb]
        · rw [if_neg hb, Memory.read, if_neg (by omega)]
    · split
      · rename_i _ hak
        subst hak
        split
        · rename_i hv
          by_cases hb : b = a
          · rw [if_pos hb, hb, hv]; exact read_of_lt_wfFrom h.2 (by omega)
          · rw [if_neg hb, Memory.read, if_neg (by omega)]
        · by_cases hb : b = a
          · simp [Memory.read, hb]
          · simp only [Memory.read, if_neg hb]
            rw [if_neg (by omega), if_neg (by omega)]
      · rename_i hlt hne
        rw [Memory.read, ih h.2]
        by_cases hkb : k = b
        · have : b ≠ a := by omega
          simp [Memory.read, hkb, this]
        · simp [Memory.read, hkb]

theorem read_write {m : Memory} (h : Memory.wf m = true) (a : Nat) (v : Byte) (b : Nat) :
    Memory.read (Memory.write m a v) b = if b = a then v else Memory.read m b :=
  read_write_from h

theorem read_write_same {m : Memory} (h : Memory.wf m = true) (a : Nat) (v : Byte) :
    Memory.read (Memory.write m a v) a = v := by simp [read_write h]

theorem read_write_other {m : Memory} (h : Memory.wf m = true) {a b : Nat} (hb : b ≠ a) (v : Byte) :
    Memory.read (Memory.write m a v) b = Memory.read m b := by simp [read_write h, hb]

/-- A write keeps the canonical form. -/
theorem write_wfFrom {lo a v} {m : Memory} (h : Memory.wfFrom lo m = true) (ha : lo ≤ a) :
    Memory.wfFrom lo (Memory.write m a v) = true := by
  induction m generalizing lo with
  | nil => by_cases hv : v = 0#8 <;> simp [Memory.write, Memory.wfFrom, hv, ha]
  | cons c rest ih =>
    obtain ⟨k, w⟩ := c
    have hwf := h
    simp only [Memory.wfFrom, Bool.and_eq_true, decide_eq_true_eq] at h
    rw [Memory.write]
    split
    · split
      · exact hwf
      · rename_i hlt hv
        simp [Memory.wfFrom, h.1.2, h.2, hv, ha]
        omega
    · split
      · split
        · exact wfFrom_mono (by omega) h.2
        · rename_i _ hak hv
          subst hak
          simp [Memory.wfFrom, h.2, hv, ha]
      · simp only [Memory.wfFrom, Bool.and_eq_true, decide_eq_true_eq]
        exact ⟨h.1, ih h.2 (by omega)⟩

theorem write_wf {m : Memory} (h : Memory.wf m = true) (a : Nat) (v : Byte) :
    Memory.wf (Memory.write m a v) = true :=
  write_wfFrom h (Nat.zero_le a)

theorem write_below {size a : Nat} {m : Memory} (h : Memory.below size m = true) (ha : a < size)
    (v : Byte) : Memory.below size (Memory.write m a v) = true := by
  induction m with
  | nil => by_cases hv : v = 0#8 <;> simp [Memory.write, Memory.below, hv, ha]
  | cons c rest ih =>
    obtain ⟨k, w⟩ := c
    simp only [Memory.below, List.all_cons, Bool.and_eq_true, decide_eq_true_eq] at h ih ⊢
    rw [Memory.write]
    split
    · split <;> simp [h.1, ha] <;> simpa using h.2
    · split
      · split <;> simp [ha] <;> simpa using h.2
      · simp only [List.all_cons, Bool.and_eq_true, decide_eq_true_eq]
        exact ⟨h.1, ih h.2⟩

/-- A write inside the memory keeps it fitting. -/
theorem write_fits {size a : Nat} {m : Memory} (h : Memory.Fits size m) (ha : a < size) (v : Byte) :
    Memory.Fits size (Memory.write m a v) :=
  ⟨write_wf h.1 a v, write_below h.2 ha v⟩

theorem fits_nil (size : Nat) : Memory.Fits size [] := ⟨rfl, rfl⟩

/-- Canonical memories that read alike are equal. -/
theorem eq_of_read_eq_from {lo : Nat} {m m' : Memory} (h : Memory.wfFrom lo m = true)
    (h' : Memory.wfFrom lo m' = true) (hr : ∀ a, Memory.read m a = Memory.read m' a) : m = m' := by
  induction m generalizing lo m' with
  | nil =>
    cases m' with
    | nil => rfl
    | cons c rest =>
      obtain ⟨k, w⟩ := c
      have := hr k
      simp only [Memory.wfFrom, Bool.and_eq_true] at h'
      simp [Memory.read] at this
      simp [← this] at h'
  | cons c rest ih =>
    obtain ⟨k, w⟩ := c
    have hw := h
    simp only [Memory.wfFrom, Bool.and_eq_true, decide_eq_true_eq] at h
    cases m' with
    | nil =>
      have := hr k
      simp [Memory.read] at this
      simp [this] at h
    | cons c' rest' =>
      obtain ⟨k', w'⟩ := c'
      have hw' := h'
      simp only [Memory.wfFrom, Bool.and_eq_true, decide_eq_true_eq] at h'
      have hk : k = k' := by
        rcases Nat.lt_trichotomy k k' with hlt | heq | hgt
        · have := hr k
          rw [Memory.read, if_pos rfl, Memory.read, if_neg (by omega),
            read_of_lt_wfFrom h'.2 (by omega)] at this
          simp [this] at h
        · exact heq
        · have := hr k'
          rw [Memory.read, if_neg (by omega), read_of_lt_wfFrom h.2 (by omega), Memory.read,
            if_pos rfl] at this
          simp [← this] at h'
      subst hk
      have hwv : w = w' := by simpa [Memory.read] using hr k
      subst hwv
      have hrest : ∀ a, Memory.read rest a = Memory.read rest' a := by
        intro a
        rcases Nat.lt_or_ge k a with hlt | hge
        · have := hr a
          rwa [Memory.read, if_neg (by omega), Memory.read, if_neg (by omega)] at this
        · rw [read_of_lt_wfFrom h.2 (by omega), read_of_lt_wfFrom h'.2 (by omega)]
      rw [ih h.2 h'.2 hrest]

theorem eq_of_read_eq {m m' : Memory} (h : Memory.wf m = true) (h' : Memory.wf m' = true)
    (hr : ∀ a, Memory.read m a = Memory.read m' a) : m = m' :=
  eq_of_read_eq_from h h' hr

/-- The memory of a fresh core has the canonical form. -/
theorem reset_oam_fits (p : Params) : Memory.Fits Config.oamSize (Regs.reset p).oam := ⟨rfl, rfl⟩
theorem reset_pal_fits (p : Params) : Memory.Fits Config.paletteSize (Regs.reset p).pal := ⟨rfl, rfl⟩

end Sys2Proof.Machine
end

