-- ==== Sys2Proof/Laws/State.lean ====
section
/-! SUPPORT. The fields of the named state updates, and how a command runs (perform, andThen). -/

namespace Sys2Proof.Machine

open Sys2Proof

/-! ### withRegs -/

@[simp] theorem withRegs_regs (s : State) (f : Regs → Regs) : (s.withRegs f).regs = f s.regs := rfl
@[simp] theorem withRegs_tileCache (s : State) (f : Regs → Regs) :
    (s.withRegs f).tileCache = s.tileCache := rfl
@[simp] theorem withRegs_grid (s : State) (f : Regs → Regs) : (s.withRegs f).grid = s.grid := rfl
@[simp] theorem withRegs_gridValid (s : State) (f : Regs → Regs) :
    (s.withRegs f).gridValid = s.gridValid := rfl
@[simp] theorem withRegs_sprites (s : State) (f : Regs → Regs) :
    (s.withRegs f).sprites = s.sprites := rfl
@[simp] theorem withRegs_run (s : State) (f : Regs → Regs) : (s.withRegs f).run = s.run := rfl
@[simp] theorem withRegs_mapper (s : State) (f : Regs → Regs) : (s.withRegs f).mapper = s.mapper := rfl
@[simp] theorem withRegs_presented (s : State) (f : Regs → Regs) :
    (s.withRegs f).presented = s.presented := rfl
@[simp] theorem withRegs_params (s : State) (f : Regs → Regs) : (s.withRegs f).params = s.params := rfl
@[simp] theorem withRegs_requests (s : State) (f : Regs → Regs) :
    (s.withRegs f).requests = s.requests := rfl
@[simp] theorem withRegs_reply (s : State) (f : Regs → Regs) : (s.withRegs f).reply = s.reply := rfl

/-! ### answer -/

@[simp] theorem answer_regs (s : State) (r : Reply) : (s.answer r).regs = s.regs := rfl
@[simp] theorem answer_tileCache (s : State) (r : Reply) : (s.answer r).tileCache = s.tileCache := rfl
@[simp] theorem answer_grid (s : State) (r : Reply) : (s.answer r).grid = s.grid := rfl
@[simp] theorem answer_gridValid (s : State) (r : Reply) : (s.answer r).gridValid = s.gridValid := rfl
@[simp] theorem answer_sprites (s : State) (r : Reply) : (s.answer r).sprites = s.sprites := rfl
@[simp] theorem answer_run (s : State) (r : Reply) : (s.answer r).run = s.run := rfl
@[simp] theorem answer_mapper (s : State) (r : Reply) : (s.answer r).mapper = s.mapper := rfl
@[simp] theorem answer_presented (s : State) (r : Reply) : (s.answer r).presented = s.presented := rfl
@[simp] theorem answer_params (s : State) (r : Reply) : (s.answer r).params = s.params := rfl
@[simp] theorem answer_requests (s : State) (r : Reply) : (s.answer r).requests = s.requests := rfl
@[simp] theorem answer_reply (s : State) (r : Reply) : (s.answer r).reply = some r := rfl

/-! ### clearReply -/

@[simp] theorem clearReply_regs (s : State) : s.clearReply.regs = s.regs := rfl
@[simp] theorem clearReply_tileCache (s : State) : s.clearReply.tileCache = s.tileCache := rfl
@[simp] theorem clearReply_grid (s : State) : s.clearReply.grid = s.grid := rfl
@[simp] theorem clearReply_gridValid (s : State) : s.clearReply.gridValid = s.gridValid := rfl
@[simp] theorem clearReply_sprites (s : State) : s.clearReply.sprites = s.sprites := rfl
@[simp] theorem clearReply_run (s : State) : s.clearReply.run = s.run := rfl
@[simp] theorem clearReply_mapper (s : State) : s.clearReply.mapper = s.mapper := rfl
@[simp] theorem clearReply_presented (s : State) : s.clearReply.presented = s.presented := rfl
@[simp] theorem clearReply_params (s : State) : s.clearReply.params = s.params := rfl
@[simp] theorem clearReply_requests (s : State) : s.clearReply.requests = s.requests := rfl
@[simp] theorem clearReply_reply (s : State) : s.clearReply.reply = none := rfl

theorem clearReply_of_reply_none {s : State} (h : s.reply = none) : s.clearReply = s := by
  cases s; cases h; rfl

/-! ### halt -/

@[simp] theorem halt_regs (s : State) (c : HaltCause) : (s.halt c).regs = s.regs := rfl
@[simp] theorem halt_tileCache (s : State) (c : HaltCause) : (s.halt c).tileCache = s.tileCache := rfl
@[simp] theorem halt_grid (s : State) (c : HaltCause) : (s.halt c).grid = s.grid := rfl
@[simp] theorem halt_gridValid (s : State) (c : HaltCause) : (s.halt c).gridValid = s.gridValid := rfl
@[simp] theorem halt_sprites (s : State) (c : HaltCause) : (s.halt c).sprites = s.sprites := rfl
@[simp] theorem halt_run (s : State) (c : HaltCause) : (s.halt c).run = .halted c s.regs := rfl
@[simp] theorem halt_mapper (s : State) (c : HaltCause) : (s.halt c).mapper = s.mapper := rfl
@[simp] theorem halt_presented (s : State) (c : HaltCause) : (s.halt c).presented = s.presented := rfl
@[simp] theorem halt_params (s : State) (c : HaltCause) : (s.halt c).params = s.params := rfl
@[simp] theorem halt_requests (s : State) (c : HaltCause) : (s.halt c).requests = s.requests := rfl
@[simp] theorem halt_reply (s : State) (c : HaltCause) : (s.halt c).reply = s.reply := rfl

/-! ### present -/

@[simp] theorem present_regs (s : State) : (present s).regs = s.regs := rfl
@[simp] theorem present_tileCache (s : State) : (present s).tileCache = s.tileCache := rfl
@[simp] theorem present_grid (s : State) : (present s).grid = s.grid := rfl
@[simp] theorem present_gridValid (s : State) : (present s).gridValid = s.gridValid := rfl
@[simp] theorem present_sprites (s : State) : (present s).sprites = s.sprites := rfl
@[simp] theorem present_run (s : State) : (present s).run = s.run := rfl
@[simp] theorem present_mapper (s : State) : (present s).mapper = s.mapper := rfl
@[simp] theorem present_presented (s : State) :
    (present s).presented = s.presented ++ [⟨s.regs.frame, s.grid, s.sprites⟩] := rfl
@[simp] theorem present_params (s : State) : (present s).params = s.params := rfl
@[simp] theorem present_requests (s : State) : (present s).requests = s.requests := rfl
@[simp] theorem present_reply (s : State) : (present s).reply = s.reply := rfl

/-! ### RESET's effect -/

@[simp] theorem resetCore_regs (s : State) : (resetCore s).regs = Regs.reset s.params := rfl
@[simp] theorem resetCore_run (s : State) : (resetCore s).run = .running := rfl
@[simp] theorem resetCore_mapper (s : State) : (resetCore s).mapper = s.mapper := rfl
@[simp] theorem resetCore_presented (s : State) : (resetCore s).presented = s.presented := rfl
@[simp] theorem resetCore_params (s : State) : (resetCore s).params = s.params := rfl
@[simp] theorem resetCore_requests (s : State) : (resetCore s).requests = s.requests := rfl
@[simp] theorem resetCore_reply (s : State) : (resetCore s).reply = none := rfl
@[simp] theorem resetCore_gridValid (s : State) : (resetCore s).gridValid = false := rfl
@[simp] theorem resetCore_tileCache (s : State) :
    (resetCore s).tileCache = Vector.replicate 512 none := rfl

/-! ### andThen and perform -/

theorem andThen_running {s : State} (h : s.run = .running) (f : State → State) :
    s.andThen f = f s := by
  simp [State.andThen, h]

theorem andThen_halted {s : State} {c : HaltCause} {r : Regs} (h : s.run = .halted c r)
    (f : State → State) : s.andThen f = s := by
  simp [State.andThen, h]

/-- What `andThen` can be: the rest of the rule, or nothing more after a halt. -/
theorem andThen_cases (s : State) (f : State → State) :
    (s.run = .running ∧ s.andThen f = f s) ∨
      ((∃ c r, s.run = .halted c r) ∧ s.andThen f = s) := by
  cases h : s.run with
  | running => exact .inl ⟨rfl, andThen_running h f⟩
  | halted c r => exact .inr ⟨⟨c, r, rfl⟩, andThen_halted h f⟩

theorem perform_running {s : State} (h : s.Running) (body : State → State) :
    perform body s = .next (body s.clearReply) := by
  rw [perform, andThen_running (by simpa using h)]

theorem perform_halted {s : State} {c : HaltCause} {r : Regs} (h : s.run = .halted c r)
    (body : State → State) : perform body s = .next s.clearReply := by
  rw [perform, andThen_halted (by simpa using h)]

/-- A command of a Running machine answers the state its body computes. -/
theorem perform_eq {s t : State} {body : State → State} (h : s.Running)
    (hb : body s.clearReply = t) : perform body s = .next t := by
  rw [perform_running h, hb]

/-- What a command other than RESET can answer. -/
theorem perform_cases {body : State → State} {s t : State} (h : perform body s = .next t) :
    (s.Running ∧ t = body s.clearReply) ∨ ((∃ c r, s.run = .halted c r) ∧ t = s.clearReply) := by
  cases hr : s.run with
  | running => rw [perform_running hr] at h; exact .inl ⟨hr, by simpa using h.symm⟩
  | halted c r => rw [perform_halted hr] at h; exact .inr ⟨⟨c, r, rfl⟩, by simpa using h.symm⟩

end Sys2Proof.Machine
end

