-- ==== Sys2Proof/Laws/Ops.lean ====
section
/-! SUPPORT. The shared operations: palette indexing, the PPU address space, the mapper, Schedule. -/

namespace Sys2Proof.Machine

open Sys2Proof

/-! ### PalIndex (R75) -/

/-- PalIndex as arithmetic on the address. -/
theorem palIndex_toNat (a : VAddr) :
    (palIndex a).toNat =
      if a.toNat / 16 % 2 = 1 ∧ a.toNat % 4 = 0 then a.toNat % 16 else a.toNat % 32 := by
  have h4 : a.getLsbD 4 = decide (a.toNat / 16 % 2 = 1) := by
    simp [BitVec.getLsbD, Nat.testBit_eq_decide_div_mod_eq]
  have h2 : (a.extractLsb' 0 2 == 0#2) = decide (a.toNat % 4 = 0) := by
    rw [Bool.eq_iff_iff]
    simp [← BitVec.toNat_inj]
  have h0 : (0#1 ++ a.extractLsb' 0 4 : BitVec 5).toNat = a.toNat % 16 := by
    rw [BitVec.toNat_append]
    simp
  have h5 : (a.extractLsb' 0 5).toNat = a.toNat % 32 := by simp
  rw [palIndex, h4, h2]
  by_cases hc : a.toNat / 16 % 2 = 1 ∧ a.toNat % 4 = 0
  · rw [if_pos (by simpa using hc), if_pos hc, h0]
  · rw [if_neg (by simpa using hc), if_neg hc, h5]

theorem palIndex_lt (a : VAddr) : (palIndex a).toNat < Config.paletteSize := (palIndex a).isLt

/-- The four aliased cells are never addressed (R44 d). -/
theorem palIndex_ne_alias (a : VAddr) {k : Nat}
    (hk : k = 0x10 ∨ k = 0x14 ∨ k = 0x18 ∨ k = 0x1C) : (palIndex a).toNat ≠ k := by
  rw [palIndex_toNat]
  split <;> omega

theorem aliases_unused_write {pal : Memory} (hwf : Memory.wf pal = true)
    (h : PaletteAliasesUnused pal) (a : VAddr) (v : Byte) :
    PaletteAliasesUnused (Memory.write pal (palIndex a).toNat v) := by
  obtain ⟨h0, h1, h2, h3⟩ := h
  refine ⟨?_, ?_, ?_, ?_⟩
  · rw [read_write_other hwf (palIndex_ne_alias a (by simp)).symm]; exact h0
  · rw [read_write_other hwf (palIndex_ne_alias a (by simp)).symm]; exact h1
  · rw [read_write_other hwf (palIndex_ne_alias a (by simp)).symm]; exact h2
  · rw [read_write_other hwf (palIndex_ne_alias a (by simp)).symm]; exact h3

/-! ### The mapper (R74, R79) -/

theorem nromPage_le {mir : Mirroring} {t : Nat} (ht : t < 4) : nromPage mir t ≤ 1 := by
  cases mir with
  | vertical => simp [nromPage]; omega
  | horizontal => simp [nromPage]; omega
  | other => have := (Config.otherPage (BitVec.ofNat 2 t)).isLt; simp only [nromPage]; omega

theorem nromNtIndex_lt (mir : Mirroring) (a : Nat) : nromNtIndex mir a < 0x800 := by
  have hb : (a - 0x2000) % 0x1000 / 0x400 < 4 := by omega
  have := nromPage_le (mir := mir) hb
  simp only [nromNtIndex]
  omega

theorem ppuWrite_fits {m : Mapper} (h : m.Fits) (a : VAddr) (v : Byte) : (ppuWrite m a v).Fits := by
  cases m with
  | external e => trivial
  | refNROM n =>
    obtain ⟨hc, hn⟩ := h
    simp only [ppuWrite, RefNROM.write]
    split
    · split
      · exact ⟨write_fits hc ‹_› v, hn⟩
      · exact ⟨hc, hn⟩
    · exact ⟨hc, write_fits hn (nromNtIndex_lt _ _) v⟩

/-- A Data write leaves the mapper's mirroring mode as it was (RefNROM). -/
theorem refNROM_write_mirroring (n : RefNROM) (a : VAddr) (v : Byte) :
    (n.write a v).mirroring = n.mirroring := by
  simp only [RefNROM.write]
  split
  · split <;> rfl
  · rfl

theorem ppuWrite_patternRom {m : Mapper} (h : m.PatternRom) (a : VAddr) (v : Byte) :
    (ppuWrite m a v).PatternRom := by
  cases m with
  | external e => exact h
  | refNROM n =>
    change (n.write a v).chrWritable = false
    change n.chrWritable = false at h
    rw [RefNROM.write]
    split
    · split <;> exact h
    · exact h

/-- With ROM pattern tables a write changes no pattern byte. -/
theorem ppuRead_pattern_write {m : Mapper} (h : m.PatternRom) (a : VAddr) (v : Byte) {b : VAddr}
    (hb : b.toNat < 0x2000) : ppuRead (ppuWrite m a v) b = ppuRead m b := by
  cases m with
  | external e => exact h.elim
  | refNROM n =>
    simp only [Mapper.PatternRom] at h
    simp only [ppuRead, ppuWrite, RefNROM.read, if_pos hb, RefNROM.write, h]
    split <;> simp

/-! ### The PPU address space (R76, R77) -/

@[simp] theorem vramWrite_run (a : VAddr) (v : Byte) (s : State) : (vramWrite a v s).run = s.run := by
  simp only [vramWrite]; split <;> rfl
@[simp] theorem vramWrite_params (a : VAddr) (v : Byte) (s : State) :
    (vramWrite a v s).params = s.params := by simp only [vramWrite]; split <;> rfl
@[simp] theorem vramWrite_requests (a : VAddr) (v : Byte) (s : State) :
    (vramWrite a v s).requests = s.requests := by simp only [vramWrite]; split <;> rfl
@[simp] theorem vramWrite_reply (a : VAddr) (v : Byte) (s : State) :
    (vramWrite a v s).reply = s.reply := by simp only [vramWrite]; split <;> rfl
@[simp] theorem vramWrite_presented (a : VAddr) (v : Byte) (s : State) :
    (vramWrite a v s).presented = s.presented := by simp only [vramWrite]; split <;> rfl
@[simp] theorem vramWrite_tileCache (a : VAddr) (v : Byte) (s : State) :
    (vramWrite a v s).tileCache = s.tileCache := by simp only [vramWrite]; split <;> rfl
@[simp] theorem vramWrite_grid (a : VAddr) (v : Byte) (s : State) :
    (vramWrite a v s).grid = s.grid := by simp only [vramWrite]; split <;> rfl
@[simp] theorem vramWrite_gridValid (a : VAddr) (v : Byte) (s : State) :
    (vramWrite a v s).gridValid = s.gridValid := by simp only [vramWrite]; split <;> rfl
@[simp] theorem vramWrite_sprites (a : VAddr) (v : Byte) (s : State) :
    (vramWrite a v s).sprites = s.sprites := by simp only [vramWrite]; split <;> rfl

/-- Everything a VramWrite can do (R77). -/
theorem vramWrite_cases (a : VAddr) (v : Byte) (s : State) :
    (0x3F00 ≤ a.toNat ∧ vramWrite a v s =
        { s with regs := { s.regs with pal := Memory.write s.regs.pal (palIndex a).toNat v } }) ∨
      (a.toNat < 0x3F00 ∧ vramWrite a v s = { s with mapper := ppuWrite s.mapper a v }) := by
  by_cases h : 0x3F00 ≤ a.toNat
  · exact .inl ⟨h, by simp [vramWrite, inPalette, h, State.withRegs]⟩
  · exact .inr ⟨by omega, by simp [vramWrite, inPalette, h]⟩

/-! ### Schedule (R132) -/

theorem schedule_ok {a : Action} {c : Nat} {s : State} (h : s.regs.cycle < c)
    (h' : c ≤ Config.cyclesPerFrame) :
    schedule a c s = { s with regs := { s.regs with nextAction := a, nextActionCycle := c } } := by
  rw [schedule, if_neg (by omega)]
  rfl

theorem schedule_bad {a : Action} {c : Nat} {s : State}
    (h : c ≤ s.regs.cycle ∨ Config.cyclesPerFrame < c) :
    schedule a c s = s.halt .schedulerInvariant := by
  rw [schedule, if_pos h]

/-- Everything Schedule can do. -/
theorem schedule_cases (a : Action) (c : Nat) (s : State) :
    ((s.regs.cycle < c ∧ c ≤ Config.cyclesPerFrame) ∧
        schedule a c s = { s with regs := { s.regs with nextAction := a, nextActionCycle := c } }) ∨
      ((c ≤ s.regs.cycle ∨ Config.cyclesPerFrame < c) ∧
        schedule a c s = s.halt .schedulerInvariant) := by
  by_cases h : c ≤ s.regs.cycle ∨ Config.cyclesPerFrame < c
  · exact .inr ⟨h, schedule_bad h⟩
  · exact .inl ⟨by omega, schedule_ok (by omega) (by omega)⟩

end Sys2Proof.Machine
end

