-- ==== Sys2Proof/Laws/Pipeline.lean ====
section
/-! SUPPORT. Tile, RebuildGrid, DecodeSprites and Predict: what each changes and what each computes. -/

namespace Sys2Proof.Machine

open Sys2Proof

/-! ### Tile (R180, R184) -/

/-- A state that differs from another in `tileCache` only. -/
abbrev SameButCache (s t : State) : Prop := t = { s with tileCache := t.tileCache }

theorem SameButCache.trans {s t u : State} (h : SameButCache s t) (h' : SameButCache t u) :
    SameButCache s u := by
  rw [SameButCache, h', h]

theorem tileFill_sameButCache (half : BitVec 1) (id : Byte) (s : State) :
    SameButCache s (tileFill half id s) := by
  rw [tileFill]; split <;> rfl

@[simp] theorem tileFill_regs (half : BitVec 1) (id : Byte) (s : State) :
    (tileFill half id s).regs = s.regs := by rw [tileFill_sameButCache half id s]
@[simp] theorem tileFill_grid (half : BitVec 1) (id : Byte) (s : State) :
    (tileFill half id s).grid = s.grid := by rw [tileFill_sameButCache half id s]
@[simp] theorem tileFill_gridValid (half : BitVec 1) (id : Byte) (s : State) :
    (tileFill half id s).gridValid = s.gridValid := by rw [tileFill_sameButCache half id s]
@[simp] theorem tileFill_sprites (half : BitVec 1) (id : Byte) (s : State) :
    (tileFill half id s).sprites = s.sprites := by rw [tileFill_sameButCache half id s]
@[simp] theorem tileFill_run (half : BitVec 1) (id : Byte) (s : State) :
    (tileFill half id s).run = s.run := by rw [tileFill_sameButCache half id s]
@[simp] theorem tileFill_mapper (half : BitVec 1) (id : Byte) (s : State) :
    (tileFill half id s).mapper = s.mapper := by rw [tileFill_sameButCache half id s]
@[simp] theorem tileFill_presented (half : BitVec 1) (id : Byte) (s : State) :
    (tileFill half id s).presented = s.presented := by rw [tileFill_sameButCache half id s]
@[simp] theorem tileFill_params (half : BitVec 1) (id : Byte) (s : State) :
    (tileFill half id s).params = s.params := by rw [tileFill_sameButCache half id s]
@[simp] theorem tileFill_requests (half : BitVec 1) (id : Byte) (s : State) :
    (tileFill half id s).requests = s.requests := by rw [tileFill_sameButCache half id s]
@[simp] theorem tileFill_reply (half : BitVec 1) (id : Byte) (s : State) :
    (tileFill half id s).reply = s.reply := by rw [tileFill_sameButCache half id s]

/-- (half, id) determines its entry and is determined by it. -/
theorem tileKey_inj {half half' : BitVec 1} {id id' : Byte} (h : tileKey half id = tileKey half' id') :
    half = half' ∧ id = id' := by
  have h1 := half.isLt; have h2 := half'.isLt; have h3 := id.isLt; have h4 := id'.isLt
  simp only [tileKey, Fin.mk.injEq] at h
  exact ⟨BitVec.eq_of_toNat_eq (by omega), BitVec.eq_of_toNat_eq (by omega)⟩

/-- The cache after a fill: the entry holds what Tile returns, every other entry is as it was (R180). -/
theorem tileFill_entry (half : BitVec 1) (id : Byte) (s : State) (k : Fin 512) :
    (tileFill half id s).tileCache[k] =
      if k = tileKey half id then some (tileValue s half id) else s.tileCache[k] := by
  rw [tileFill, tileValue]
  cases h : s.tileCache[tileKey half id] with
  | some px => by_cases hk : k = tileKey half id <;> simp [hk, h]
  | none =>
    by_cases hk : k = tileKey half id
    · simp [hk]
    · have hne : (tileKey half id).val ≠ k.val := fun e => hk (Fin.ext e.symm)
      simp [hk, hne]

/-- An entry once filled stays (R184). -/
theorem tileFill_keeps {half : BitVec 1} {id : Byte} {s : State} {k : Fin 512} {px : Tile}
    (h : s.tileCache[k] = some px) : (tileFill half id s).tileCache[k] = some px := by
  rw [tileFill_entry]
  split
  · rename_i hk
    subst hk
    simp only [tileValue, h, Option.getD_some]
  · exact h

/-- A fill changes no later answer of Tile: the mapper's reads are pure (R74). -/
@[simp] theorem tileValue_tileFill (half half' : BitVec 1) (id id' : Byte) (s : State) :
    tileValue (tileFill half id s) half' id' = tileValue s half' id' := by
  have := tileFill_entry half id s (tileKey half' id')
  rw [tileValue, this, tileFill_mapper]
  split
  · rename_i hk
    obtain ⟨rfl, rfl⟩ := tileKey_inj hk
    rfl
  · rfl

/-- Tile's answer depends on the cache and the mapper only. -/
theorem tileValue_congr {s t : State} (hc : t.tileCache = s.tileCache) (hm : t.mapper = s.mapper)
    (half : BitVec 1) (id : Byte) : tileValue t half id = tileValue s half id := by
  simp only [tileValue, hc, hm]

/-! ### Which entries are filled (R180, R193, R207) -/

theorem cacheFilled_congr {p q : BitVec 1 → Byte → Prop} {s t : State} (h : CacheFilled p s t)
    (e : ∀ half id, p half id ↔ q half id) : CacheFilled q s t := fun half id =>
  ⟨fun hq => (h half id).1 ((e half id).mpr hq), fun hq => (h half id).2 (mt (e half id).mp hq)⟩

/-- Nothing looked up, no entry changed. -/
theorem cacheFilled_none {p : BitVec 1 → Byte → Prop} {s t : State} (hp : ∀ half id, ¬ p half id)
    (hc : t.tileCache = s.tileCache) : CacheFilled p s t := fun half id =>
  ⟨fun h => absurd h (hp half id), fun _ => by rw [hc]⟩

/-- CacheFilled speaks of the caches and the mapper's bytes only. -/
theorem cacheFilled_of_eq {p : BitVec 1 → Byte → Prop} {s s' t t' : State} (h : CacheFilled p s t)
    (hc : s'.tileCache = s.tileCache) (hm : s'.mapper = s.mapper)
    (ht : t'.tileCache = t.tileCache) : CacheFilled p s' t' := fun half id => by
  rw [ht, hc, tileValue_congr hc hm]
  exact h half id

/-- Looking tiles up changes no later answer of Tile. -/
theorem tileValue_cacheFilled {p : BitVec 1 → Byte → Prop} {s t : State} (h : CacheFilled p s t)
    (hm : t.mapper = s.mapper) (half : BitVec 1) (id : Byte) :
    tileValue t half id = tileValue s half id := by
  by_cases hp : p half id
  · rw [tileValue, (h half id).1 hp, Option.getD_some]
  · rw [tileValue, (h half id).2 hp, hm, tileValue]

theorem cacheFilled_trans {p q : BitVec 1 → Byte → Prop} {s t u : State} (h : CacheFilled p s t)
    (h' : CacheFilled q t u) (hm : t.mapper = s.mapper) :
    CacheFilled (fun half id => p half id ∨ q half id) s u := fun half id => by
  by_cases hq : q half id
  · refine ⟨fun _ => ?_, fun hn => absurd (.inr hq) hn⟩
    rw [(h' half id).1 hq, tileValue_cacheFilled h hm]
  · rw [(h' half id).2 hq]
    exact ⟨fun ho => (h half id).1 (ho.resolve_right hq),
      fun hn => (h half id).2 fun hp => hn (.inl hp)⟩

theorem tileFill_filled (half : BitVec 1) (id : Byte) (s : State) :
    CacheFilled (fun half' id' => half' = half ∧ id' = id) s (tileFill half id s) := by
  intro half' id'
  rw [tileFill_entry]
  refine ⟨?_, fun hn => if_neg fun hk => hn (tileKey_inj hk)⟩
  rintro ⟨rfl, rfl⟩
  exact if_pos rfl

theorem tileFill_faithful {half : BitVec 1} {id : Byte} {s : State} (h : s.CacheFaithful) :
    (tileFill half id s).CacheFaithful := by
  intro hf i t ht
  rw [tileFill_entry] at ht
  rw [tileFill_mapper]
  split at ht
  · rename_i hk
    obtain ⟨rfl, rfl⟩ := tileKey_inj hk
    simp only [Option.some.injEq] at ht
    rw [← ht, tileValue]
    cases hc : s.tileCache[tileKey hf i] with
    | none => rfl
    | some px => exact h hf i px hc
  · exact h hf i t ht

/-! ### RebuildGrid (R191) -/

theorem rebuildGrid_ok {s : State} (h : mirroringSupported s.mapper = true) :
    rebuildGrid s =
      { s with grid := builtGrid s.mapper s.regs.ctrl.ntBase, gridValid := true } := by
  rw [rebuildGrid, if_pos h]

theorem rebuildGrid_bad {s : State} (h : mirroringSupported s.mapper = false) :
    rebuildGrid s = s.halt .unsupportedMirroring := by
  rw [rebuildGrid, if_neg (by simp [h])]

/-- The cells RebuildGrid stores. -/
theorem gridCell_builtGrid (m : Mapper) (n : Bits2) {row col : Nat} (hr : row < 30) (hc : col < 32) :
    gridCell (builtGrid m n) row col = builtCell m n row col := by
  simp [gridCell, builtGrid, Nat.mod_eq_of_lt hr, Nat.mod_eq_of_lt hc]

/-! ### DecodeSprites (R193) -/

theorem slotByte_congr {s t : State} (h : t.regs.oam = s.regs.oam) (k i : Nat) :
    slotByte t k i = slotByte s k i := by
  simp only [slotByte, oamByte, h]

/-- A state that differs from another in `tileCache` and `sprites` only. -/
abbrev SameButSprites (s t : State) : Prop :=
  t = { s with tileCache := t.tileCache, sprites := t.sprites }

theorem decodeSprite_same (s : State) (k : Fin 64) : SameButSprites s (decodeSprite s k) := by
  rw [decodeSprite, SameButSprites, tileFill_sameButCache]

theorem slotSprite_decodeSprite (s : State) (k : Fin 64) (j : Nat) :
    slotSprite (decodeSprite s k) j = slotSprite s j := by
  have hr : (decodeSprite s k).regs = s.regs := by rw [decodeSprite_same s k]
  have hv : ∀ half id, tileValue (decodeSprite s k) half id = tileValue s half id := by
    intro half id
    exact (tileValue_congr (s := tileFill s.regs.ctrl.sprTable (slotByte s k.val 1) s) rfl rfl
      half id).trans (tileValue_tileFill _ _ _ _ s)
  simp only [slotSprite, slotByte_congr (congrArg Regs.oam hr), hr, hv]

/-- A slot's record depends on OAM, the table select, the cache and the mapper only. -/
theorem slotSprite_congr {s t : State} (hr : t.regs = s.regs) (hc : t.tileCache = s.tileCache)
    (hm : t.mapper = s.mapper) (k : Nat) : slotSprite t k = slotSprite s k := by
  simp only [slotSprite, slotByte, oamByte, tileValue, hr, hc, hm]

theorem decodeSprite_sprites (s : State) (k j : Fin 64) :
    (decodeSprite s k).sprites[j] = if j = k then slotSprite s k else s.sprites[j] := by
  by_cases h : j = k
  · subst h; simp [decodeSprite]
  · have hne : k.val ≠ j.val := fun e => h (Fin.ext e.symm)
    simp [decodeSprite, h, hne]

/-- The loop of DecodeSprites over some slots. -/
theorem foldl_decodeSprite (ks : List (Fin 64)) (s : State) :
    SameButSprites s (ks.foldl decodeSprite s) ∧
      ∀ j : Fin 64, (ks.foldl decodeSprite s).sprites[j] =
        if j ∈ ks then slotSprite s j else s.sprites[j] := by
  induction ks generalizing s with
  | nil => exact ⟨rfl, fun j => by simp⟩
  | cons k rest ih =>
    obtain ⟨h1, h2⟩ := ih (decodeSprite s k)
    refine ⟨?_, fun j => ?_⟩
    · rw [List.foldl_cons, SameButSprites, h1, decodeSprite_same s k]
    · rw [List.foldl_cons, h2, slotSprite_decodeSprite, decodeSprite_sprites]
      by_cases hjr : j ∈ rest
      · simp [hjr]
      · by_cases hjk : j = k <;> simp [hjr, hjk]

/-- The loop of DecodeSprites looks up the tiles its slots name (R193). -/
theorem foldl_decodeSprite_filled (ks : List (Fin 64)) (s : State) :
    CacheFilled (fun half id => half = s.regs.ctrl.sprTable ∧ ∃ k ∈ ks, id = slotByte s k.val 1) s
      (ks.foldl decodeSprite s) := by
  induction ks generalizing s with
  | nil => exact cacheFilled_none (by simp) rfl
  | cons k rest ih =>
    have hr : (decodeSprite s k).regs = s.regs := by rw [decodeSprite_same s k]
    have hm : (decodeSprite s k).mapper = s.mapper := by rw [decodeSprite_same s k]
    have h1 : CacheFilled (fun half id => half = s.regs.ctrl.sprTable ∧ id = slotByte s k.val 1) s
        (decodeSprite s k) :=
      cacheFilled_of_eq (tileFill_filled s.regs.ctrl.sprTable (slotByte s k.val 1) s) rfl rfl rfl
    refine cacheFilled_congr (cacheFilled_trans h1 (ih (decodeSprite s k)) hm) fun half id => ?_
    simp only [hr, slotByte_congr (congrArg Regs.oam hr), List.mem_cons, exists_eq_or_imp]
    tauto

/-- The cache after DecodeSprites holds the tiles the 64 slots name (R193, R185). -/
theorem decodeSprites_filled (s : State) :
    CacheFilled
      (fun half id => half = s.regs.ctrl.sprTable ∧ ∃ k : Fin 64, id = oamByte s (4 * k.val + 1)) s
      (decodeSprites s) :=
  cacheFilled_congr (foldl_decodeSprite_filled (List.finRange 64) s) fun half id => by
    simp [slotByte]

theorem decodeSprites_same (s : State) : SameButSprites s (decodeSprites s) :=
  (foldl_decodeSprite _ s).1

/-- Every slot's record after DecodeSprites (R193). -/
theorem decodeSprites_sprites (s : State) (j : Fin 64) :
    (decodeSprites s).sprites[j] = slotSprite s j := by
  have := (foldl_decodeSprite (List.finRange 64) s).2 j
  rwa [if_pos (List.mem_finRange j)] at this

@[simp] theorem decodeSprites_regs (s : State) : (decodeSprites s).regs = s.regs := by
  rw [decodeSprites_same s]
@[simp] theorem decodeSprites_run (s : State) : (decodeSprites s).run = s.run := by
  rw [decodeSprites_same s]
@[simp] theorem decodeSprites_mapper (s : State) : (decodeSprites s).mapper = s.mapper := by
  rw [decodeSprites_same s]
@[simp] theorem decodeSprites_params (s : State) : (decodeSprites s).params = s.params := by
  rw [decodeSprites_same s]
@[simp] theorem decodeSprites_requests (s : State) : (decodeSprites s).requests = s.requests := by
  rw [decodeSprites_same s]
@[simp] theorem decodeSprites_reply (s : State) : (decodeSprites s).reply = s.reply := by
  rw [decodeSprites_same s]
@[simp] theorem decodeSprites_presented (s : State) : (decodeSprites s).presented = s.presented := by
  rw [decodeSprites_same s]
@[simp] theorem decodeSprites_grid (s : State) : (decodeSprites s).grid = s.grid := by
  rw [decodeSprites_same s]
@[simp] theorem decodeSprites_gridValid (s : State) : (decodeSprites s).gridValid = s.gridValid := by
  rw [decodeSprites_same s]

/-- A property of the state that Tile's fills and writes of `sprites` keep is kept by DecodeSprites. -/
theorem decodeSprites_induct (P : State → Prop)
    (hfill : ∀ half id s, P s → P (tileFill half id s))
    (hspr : ∀ s (v : Sprites), P s → P { s with sprites := v }) {s : State} (h : P s) :
    P (decodeSprites s) := by
  suffices ∀ ks : List (Fin 64), ∀ s, P s → P (ks.foldl decodeSprite s) from this _ s h
  intro ks
  induction ks with
  | nil => exact fun s h => h
  | cons k rest ih => exact fun s h => ih _ (hspr _ _ (hfill _ _ _ h))

/-! ### Predict (R200 to R207) -/

/-- Pixel `k` of the footprint is on screen and opaque in both layers. -/
def hitAt (t : Tile) (s : State) (k : Nat) : Bool :=
  let y := sprite0Top s + k / 8
  let x := (slotByte s 0 3).toNat + k % 8
  decide (y < Config.visibleScanlines) && decide (x < Config.visibleColumns) &&
    isOpaque (sprite0Pixel s t (k / 8) (k % 8)) &&
    isOpaque (tilePixel (tileValue s s.regs.ctrl.bgTable (bgTileId s x y)) y x)

/-- The cycle of footprint pixel `k`. -/
def hitCycleAt (s : State) (k : Nat) : Nat :=
  hitCycle s.params ((slotByte s 0 3).toNat + k % 8) (sprite0Top s + k / 8)

theorem hitAt_tileFill (t : Tile) (half : BitVec 1) (id : Byte) (s : State) (k : Nat) :
    hitAt t (tileFill half id s) k = hitAt t s k := by
  simp only [hitAt, sprite0Top, sprite0Pixel, bgTileId, slotByte, oamByte, tileFill_regs,
    tileFill_grid, tileValue_tileFill]
  rfl

theorem hitCycleAt_tileFill (half : BitVec 1) (id : Byte) (s : State) (k : Nat) :
    hitCycleAt (tileFill half id s) k = hitCycleAt s k := by
  simp only [hitCycleAt, sprite0Top, slotByte, oamByte, tileFill_regs, tileFill_params]

/-- The scan finds the first pixel of the list that is opaque in both layers. -/
theorem predictScan_fst (t : Tile) (ks : List Nat) (s : State) :
    (predictScan t ks s).1 = (ks.find? (hitAt t s)).map (hitCycleAt s) := by
  induction ks generalizing s with
  | nil => rfl
  | cons k rest ih =>
    rw [predictScan, List.find?_cons]
    simp only
    split
    · rename_i hoff
      have : hitAt t s k = false := by
        simp only [hitAt, Bool.and_eq_false_iff, decide_eq_false_iff_not]
        omega
      rw [this, ih]
    · rename_i hon
      have h1 : sprite0Top s + k / 8 < Config.visibleScanlines := by omega
      have h2 : (slotByte s 0 3).toNat + k % 8 < Config.visibleColumns := by omega
      split
      · rename_i hspr
        split
        · rename_i hbg
          have : hitAt t s k = true := by simp [hitAt, h1, h2, hspr, hbg]
          simp [this, hitCycleAt]
        · rename_i hbg
          have : hitAt t s k = false := by simp [hitAt, h1, h2, hspr, hbg]
          rw [this, ih]
          simp only [funext (hitAt_tileFill t _ _ s), funext (hitCycleAt_tileFill _ _ s)]
      · rename_i hspr
        have : hitAt t s k = false := by simp [hitAt, h1, h2, hspr]
        rw [this, ih]

/-- Pixel `k` of the footprint is on screen and sprite 0's pixel there is opaque. -/
def spriteAt (t : Tile) (s : State) (k : Nat) : Bool :=
  decide (sprite0Top s + k / 8 < Config.visibleScanlines) &&
    decide ((slotByte s 0 3).toNat + k % 8 < Config.visibleColumns) &&
    isOpaque (sprite0Pixel s t (k / 8) (k % 8))

/-- The background tile under footprint pixel `k`. -/
def bgTileAt (s : State) (k : Nat) : Byte :=
  bgTileId s ((slotByte s 0 3).toNat + k % 8) (sprite0Top s + k / 8)

/-- The tiles the scan of a list of pixels looks up: at each pixel where the sprite is opaque, up to the first
hit (R207). -/
def scanLooksUp (t : Tile) (s : State) (ks : List Nat) (half : BitVec 1) (id : Byte) : Prop :=
  ∃ pre k post, ks = pre ++ k :: post ∧ (∀ j ∈ pre, hitAt t s j = false) ∧ spriteAt t s k = true ∧
    half = s.regs.ctrl.bgTable ∧ id = bgTileAt s k

theorem scanLooksUp_tileFill (t : Tile) (half : BitVec 1) (id : Byte) (s : State) (ks : List Nat) :
    scanLooksUp t (tileFill half id s) ks = scanLooksUp t s ks := by
  have h1 : spriteAt t (tileFill half id s) = spriteAt t s := by
    funext k
    simp only [spriteAt, sprite0Top, sprite0Pixel, slotByte, oamByte, tileFill_regs]
    rfl
  have h2 : bgTileAt (tileFill half id s) = bgTileAt s := by
    funext k
    simp only [bgTileAt, bgTileId, sprite0Top, slotByte, oamByte, tileFill_regs, tileFill_grid]
  funext half' id'
  simp only [scanLooksUp, h1, h2, hitAt_tileFill, tileFill_regs]

theorem scanLooksUp_nil (t : Tile) (s : State) (half : BitVec 1) (id : Byte) :
    ¬ scanLooksUp t s [] half id := by
  rintro ⟨pre, k, post, h, -⟩
  simp at h

/-- The scan's first pixel is looked up if the sprite is opaque there; the others only if it is no hit. -/
theorem scanLooksUp_cons (t : Tile) (s : State) (k : Nat) (rest : List Nat) (half : BitVec 1)
    (id : Byte) :
    scanLooksUp t s (k :: rest) half id ↔
      (spriteAt t s k = true ∧ half = s.regs.ctrl.bgTable ∧ id = bgTileAt s k) ∨
        (hitAt t s k = false ∧ scanLooksUp t s rest half id) := by
  constructor
  · rintro ⟨pre, j, post, he, hpre, h⟩
    cases pre with
    | nil => obtain ⟨rfl, rfl⟩ := List.cons.inj he; exact .inl h
    | cons a pre =>
      obtain ⟨rfl, rfl⟩ := List.cons.inj he
      exact .inr ⟨hpre _ (.head _), pre, j, post, rfl, fun i hi => hpre i (.tail _ hi), h⟩
  · rintro (h | ⟨hk, pre, j, post, rfl, hpre, h⟩)
    · exact ⟨[], k, rest, rfl, by simp, h⟩
    · refine ⟨k :: pre, j, post, rfl, fun i hi => ?_, h⟩
      rcases List.mem_cons.mp hi with rfl | hi
      · exact hk
      · exact hpre i hi

/-- The scan's effect on the cache (R207). -/
theorem predictScan_filled (t : Tile) (ks : List Nat) (s : State) :
    CacheFilled (scanLooksUp t s ks) s (predictScan t ks s).2 := by
  induction ks generalizing s with
  | nil => exact cacheFilled_none (scanLooksUp_nil t s) rfl
  | cons k rest ih =>
    rw [predictScan]
    simp only
    split
    · rename_i hoff
      have h1 : spriteAt t s k = false := by
        simp only [spriteAt, Bool.and_eq_false_iff, decide_eq_false_iff_not]; omega
      have h2 : hitAt t s k = false := by
        simp only [hitAt, Bool.and_eq_false_iff, decide_eq_false_iff_not]; omega
      exact cacheFilled_congr (ih s) fun half id => by rw [scanLooksUp_cons, h1, h2]; simp
    · rename_i hon
      have hy : sprite0Top s + k / 8 < Config.visibleScanlines := by omega
      have hx : (slotByte s 0 3).toNat + k % 8 < Config.visibleColumns := by omega
      split
      · rename_i hspr
        have h1 : spriteAt t s k = true := by simp [spriteAt, hy, hx, hspr]
        have hfill := tileFill_filled s.regs.ctrl.bgTable (bgTileAt s k) s
        split
        · rename_i hbg
          have h2 : hitAt t s k = true := by simp [hitAt, hy, hx, hspr, hbg]
          exact cacheFilled_congr hfill fun half id => by rw [scanLooksUp_cons, h1, h2]; simp
        · rename_i hbg
          have h2 : hitAt t s k = false := by simp [hitAt, hy, hx, hspr, hbg]
          have hrest := ih (tileFill s.regs.ctrl.bgTable (bgTileAt s k) s)
          rw [scanLooksUp_tileFill] at hrest
          exact cacheFilled_congr (cacheFilled_trans hfill hrest (tileFill_mapper _ _ _))
            fun half id => by rw [scanLooksUp_cons, h1, h2]; simp
      · rename_i hspr
        have h1 : spriteAt t s k = false := by simp [spriteAt, hy, hx, hspr]
        have h2 : hitAt t s k = false := by simp [hitAt, hy, hx, hspr]
        exact cacheFilled_congr (ih s) fun half id => by rw [scanLooksUp_cons, h1, h2]; simp

/-- The scan changes nothing but the cache. -/
theorem predictScan_same (t : Tile) (ks : List Nat) (s : State) :
    SameButCache s (predictScan t ks s).2 := by
  induction ks generalizing s with
  | nil => rfl
  | cons k rest ih =>
    rw [predictScan]
    simp only
    split
    · exact ih s
    · split
      · split
        · exact tileFill_sameButCache _ _ s
        · exact (tileFill_sameButCache _ _ s).trans (ih _)
      · exact ih s

/-- A property that Tile's fills keep is kept by the scan. -/
theorem predictScan_induct (P : State → Prop) (hfill : ∀ half id s, P s → P (tileFill half id s))
    (t : Tile) (ks : List Nat) {s : State} (h : P s) : P (predictScan t ks s).2 := by
  induction ks generalizing s with
  | nil => exact h
  | cons k rest ih =>
    rw [predictScan]
    simp only
    split
    · exact ih h
    · split
      · split
        · exact hfill _ _ _ h
        · exact ih (hfill _ _ _ h)
      · exact ih h

/-- A pixel the scan reports lies on the screen, below its first row (R205). -/
theorem hitCycleAt_bounds {t : Tile} {s : State} {k : Nat} (h : hitAt t s k = true) :
    341 + s.params.sprite0CycleOffset ≤ hitCycleAt s k ∧
      hitCycleAt s k ≤ 81754 + s.params.sprite0CycleOffset := by
  simp only [hitAt, Bool.and_eq_true, decide_eq_true_eq] at h
  obtain ⟨⟨⟨hy, hx⟩, -⟩, -⟩ := h
  have ht : 1 ≤ sprite0Top s := Nat.le_add_left _ _
  simp only [Config.visibleScanlines, Config.visibleColumns] at hy hx
  simp only [hitCycleAt, hitCycle, Config.cyclesPerScanline]
  omega

/-- Everything Predict can do: it halts with U1 and returns nothing, or it runs on, changing at most the
cache, and a cycle it returns lies within R205's bounds. -/
theorem predict_cases (s : State) :
    (predict s = (none, s.halt .sprite8x16) ∧ s.regs.mask.showBg = true ∧
        s.regs.mask.showSpr = true ∧ sprite0Top s < 240 ∧ s.regs.ctrl.sprSize = true) ∨
      (SameButCache s (predict s).2 ∧ ∀ c, (predict s).1 = some c →
        341 + s.params.sprite0CycleOffset ≤ c ∧ c ≤ 81754 + s.params.sprite0CycleOffset) := by
  rw [predict]
  split
  · exact .inr ⟨rfl, by simp⟩
  · rename_i hm
    split
    · exact .inr ⟨rfl, by simp⟩
    · rename_i hy
      split
      · rename_i hs
        simp only [Bool.or_eq_true, Bool.not_eq_eq_eq_not, Bool.not_true, not_or,
          Bool.not_eq_false] at hm
        simp only [Config.visibleScanlines] at hy
        exact .inl ⟨rfl, hm.1, hm.2, by omega, hs⟩
      · refine .inr ⟨(tileFill_sameButCache _ _ s).trans (predictScan_same _ _ _), fun c hc => ?_⟩
        rw [predictScan_fst] at hc
        obtain ⟨k, hk, rfl⟩ := Option.map_eq_some_iff.mp hc
        simpa using hitCycleAt_bounds (List.find?_some hk)

/-- A property that Tile's fills and a U1 halt keep is kept by Predict. -/
theorem predict_induct (P : State → Prop) (hfill : ∀ half id s, P s → P (tileFill half id s))
    (hhalt : ∀ s, P s → P (s.halt .sprite8x16)) {s : State} (h : P s) : P (predict s).2 := by
  rw [predict]
  split
  · exact h
  · split
    · exact h
    · split
      · exact hhalt s h
      · exact predictScan_induct P hfill _ _ (hfill _ _ _ h)

end Sys2Proof.Machine
end

