-- ==== Sys2Proof/Laws/Scheduler.lean ====
section
/-! SUPPORT. The event actions and the loop of ADVANCE: frames, the scheduler's invariant, fuel. -/

namespace Sys2Proof.Machine

open Sys2Proof

/-! ### What an action may change -/

/-- What the scheduler and the actions leave alone: every register but the clock, the frame counter, the
status flags (less overflow) and the NMI flag; the mapper, the parameters, the waiting commands. -/
structure ActionFrame (s t : State) : Prop where
  regs : t.regs = { s.regs with
    cycle := t.regs.cycle, frame := t.regs.frame, nextAction := t.regs.nextAction,
    nextActionCycle := t.regs.nextActionCycle,
    stat := { t.regs.stat with overflow := s.regs.stat.overflow },
    nmiPending := t.regs.nmiPending }
  mapper : t.mapper = s.mapper
  params : t.params = s.params
  requests : t.requests = s.requests
  reply : t.reply = s.reply

theorem ActionFrame.refl (s : State) : ActionFrame s s := ⟨rfl, rfl, rfl, rfl, rfl⟩

theorem ActionFrame.trans {s t u : State} (h : ActionFrame s t) (h' : ActionFrame t u) :
    ActionFrame s u where
  regs := by rw [h'.regs, h.regs]
  mapper := h'.mapper.trans h.mapper
  params := h'.params.trans h.params
  requests := h'.requests.trans h.requests
  reply := h'.reply.trans h.reply

theorem ActionFrame.ctrl {s t : State} (h : ActionFrame s t) : t.regs.ctrl = s.regs.ctrl := by
  rw [h.regs]
theorem ActionFrame.mask {s t : State} (h : ActionFrame s t) : t.regs.mask = s.regs.mask := by
  rw [h.regs]
theorem ActionFrame.oam {s t : State} (h : ActionFrame s t) : t.regs.oam = s.regs.oam := by
  rw [h.regs]
theorem ActionFrame.pal {s t : State} (h : ActionFrame s t) : t.regs.pal = s.regs.pal := by
  rw [h.regs]
theorem ActionFrame.latch {s t : State} (h : ActionFrame s t) : t.regs.latch = s.regs.latch := by
  rw [h.regs]
theorem ActionFrame.readBuf {s t : State} (h : ActionFrame s t) :
    t.regs.readBuf = s.regs.readBuf := by rw [h.regs]
theorem ActionFrame.overflow {s t : State} (h : ActionFrame s t) :
    t.regs.stat.overflow = s.regs.stat.overflow := by rw [h.regs]

theorem frame_of_sameButCache {s t : State} (h : SameButCache s t) : ActionFrame s t := by
  rw [h]; exact ⟨rfl, rfl, rfl, rfl, rfl⟩

theorem frame_halt (s : State) (c : HaltCause) : ActionFrame s (s.halt c) := ⟨rfl, rfl, rfl, rfl, rfl⟩

theorem frame_andThen {s t : State} {f : State → State} (h : ActionFrame s t)
    (hf : ActionFrame t (f t)) : ActionFrame s (t.andThen f) := by
  rcases andThen_cases t f with ⟨-, e⟩ | ⟨-, e⟩ <;> rw [e]
  · exact h.trans hf
  · exact h

theorem frame_schedule (a : Action) (c : Nat) (s : State) : ActionFrame s (schedule a c s) := by
  rcases schedule_cases a c s with ⟨-, e⟩ | ⟨-, e⟩ <;> rw [e]
  · exact ⟨rfl, rfl, rfl, rfl, rfl⟩
  · exact frame_halt s _

theorem frame_rebuildGrid (s : State) : ActionFrame s (rebuildGrid s) := by
  rw [rebuildGrid]; split <;> exact ⟨rfl, rfl, rfl, rfl, rfl⟩

theorem frame_refreshGrid (s : State) : ActionFrame s (refreshGrid s) := by
  rw [refreshGrid]; split
  · exact .refl s
  · exact frame_rebuildGrid s

theorem frame_decodeSprites (s : State) : ActionFrame s (decodeSprites s) := by
  rw [decodeSprites_same s]; exact ⟨rfl, rfl, rfl, rfl, rfl⟩

theorem frame_predict (s : State) : ActionFrame s (predict s).2 := by
  rcases predict_cases s with ⟨e, -⟩ | ⟨e, -⟩
  · rw [e]; exact frame_halt s _
  · exact frame_of_sameButCache e

theorem frame_scheduleHit (h : Option Nat) (s : State) : ActionFrame s (scheduleHit h s) := by
  cases h <;> exact frame_schedule _ _ s

theorem frame_finishDraw (p : Option Nat × State) : ActionFrame p.2 (finishDraw p) :=
  frame_andThen (.refl _) (frame_scheduleHit _ _)

theorem frame_arrive (s : State) : ActionFrame s (arrive s) := ⟨rfl, rfl, rfl, rfl, rfl⟩

theorem frame_actDraw (s : State) : ActionFrame s (actDraw s) := by
  rw [actDraw]
  refine frame_andThen (ActionFrame.trans (t := s.withRegs _) ?_ (frame_refreshGrid _)) ?_
  · exact ⟨rfl, rfl, rfl, rfl, rfl⟩
  · refine ActionFrame.trans (t := present _) ⟨rfl, rfl, rfl, rfl, rfl⟩ ?_
    exact (frame_predict _).trans (frame_finishDraw _)

theorem frame_clearFlags (s : State) : ActionFrame s (s.withRegs fun r =>
    { r with stat := { r.stat with spr0Hit := false, vblank := false } }) :=
  ⟨rfl, rfl, rfl, rfl, rfl⟩

theorem frame_actVblankEnd (s : State) : ActionFrame s (actVblankEnd s) := by
  rw [actVblankEnd]
  refine frame_andThen (frame_rebuildGrid s) ?_
  exact (frame_decodeSprites _).trans ((frame_clearFlags _).trans (frame_schedule _ _ _))

/-- Every action keeps the frame (R133 to R136, R195, R200). -/
theorem frame_fire (a : Action) (s : State) : ActionFrame s (fire a s) := by
  cases a with
  | vblankStart =>
    exact ActionFrame.trans (t := s.withRegs _) ⟨rfl, rfl, rfl, rfl, rfl⟩ (frame_schedule _ _ _)
  | vblankEnd => exact frame_actVblankEnd s
  | draw => exact frame_actDraw s
  | sprite0Hit =>
    exact ActionFrame.trans (t := s.withRegs _) ⟨rfl, rfl, rfl, rfl, rfl⟩ (frame_schedule _ _ _)

/-! ### The loop's principle -/

/-- A property that firing the outstanding action while Running keeps, and that moving `cycle` keeps, is
kept by ADVANCE's loop. -/
theorem advanceLoop_induct (P : State → Prop)
    (hfire : ∀ s, s.Running → P s → P (fire s.regs.nextAction (arrive s)))
    (hmove : ∀ s rem, s.Running → s.regs.cycle + rem < s.regs.nextActionCycle → P s →
      P (s.withRegs fun r => { r with cycle := (r.cycle + rem) % Config.cyclesPerFrame }))
    (fuel rem : Nat) {s : State} (h : P s) : P (advanceLoop fuel rem s) := by
  induction fuel generalizing rem s with
  | zero => exact h
  | succ fuel ih =>
    rw [advanceLoop]
    rcases andThen_cases s (fun s =>
      if s.regs.nextActionCycle ≤ s.regs.cycle + rem then
        advanceLoop fuel (s.regs.cycle + rem - s.regs.nextActionCycle)
          (fire s.regs.nextAction (arrive s))
      else s.withRegs fun r => { r with cycle := (r.cycle + rem) % Config.cyclesPerFrame })
      with ⟨hr, e⟩ | ⟨-, e⟩ <;> rw [e]
    · split
      · exact ih _ (hfire s hr h)
      · exact hmove s rem hr (by omega) h
    · exact h

theorem frame_advanceLoop (fuel rem : Nat) (s : State) :
    ActionFrame s (advanceLoop fuel rem s) :=
  advanceLoop_induct (ActionFrame s)
    (fun u _ h => h.trans ((frame_arrive u).trans (frame_fire _ _)))
    (fun _ _ _ _ h => h.trans ⟨rfl, rfl, rfl, rfl, rfl⟩) fuel rem (.refl s)

/-! ### The scheduler's invariant (R25, R132) -/

/-- After a rule that ends in Schedule: if it is still Running, the outstanding action lies strictly
ahead, within the frame. -/
abbrev Ahead (s : State) : Prop :=
  s.Running → s.regs.cycle < s.regs.nextActionCycle ∧ s.regs.nextActionCycle ≤ Config.cyclesPerFrame

theorem ahead_schedule (a : Action) (c : Nat) (s : State) : Ahead (schedule a c s) := by
  rcases schedule_cases a c s with ⟨h, e⟩ | ⟨-, e⟩ <;> rw [e]
  · exact fun _ => h
  · intro h; simp [State.Running] at h

theorem ahead_andThen {s : State} {f : State → State} (h : ∀ t, Ahead (f t)) :
    Ahead (s.andThen f) := by
  rcases andThen_cases s f with ⟨-, e⟩ | ⟨⟨c, r, hr⟩, e⟩ <;> rw [e]
  · exact h s
  · intro hrun; rw [State.Running, hr] at hrun; cases hrun

theorem ahead_scheduleHit (h : Option Nat) (s : State) : Ahead (scheduleHit h s) := by
  cases h <;> exact ahead_schedule _ _ _

theorem ahead_finishDraw (p : Option Nat × State) : Ahead (finishDraw p) :=
  ahead_andThen fun t => ahead_scheduleHit _ t

/-- Every action ends in Schedule (R131). -/
theorem ahead_fire (a : Action) (s : State) : Ahead (fire a s) := by
  cases a with
  | vblankStart => exact ahead_schedule _ _ _
  | vblankEnd =>
    rw [fire, actVblankEnd]
    exact ahead_andThen fun t => ahead_schedule _ _ _
  | draw =>
    rw [fire, actDraw]
    exact ahead_andThen fun t => ahead_finishDraw _
  | sprite0Hit => exact ahead_schedule _ _ _

/-! ### Fuel (R130 c) -/

/-- A pass that is not the last (R130). -/
theorem advanceLoop_fire {fuel rem : Nat} {s : State} (hr : s.Running)
    (h : s.regs.nextActionCycle ≤ s.regs.cycle + rem) :
    advanceLoop (fuel + 1) rem s =
      advanceLoop fuel (s.regs.cycle + rem - s.regs.nextActionCycle)
        (fire s.regs.nextAction (arrive s)) := by
  rw [advanceLoop, andThen_running hr, if_pos h]

/-- The last pass (R130). -/
theorem advanceLoop_last {fuel rem : Nat} {s : State} (hr : s.Running)
    (h : s.regs.cycle + rem < s.regs.nextActionCycle) :
    advanceLoop (fuel + 1) rem s =
      s.withRegs fun r => { r with cycle := (r.cycle + rem) % Config.cyclesPerFrame } := by
  rw [advanceLoop, andThen_running hr, if_neg (by omega)]

theorem advanceLoop_halted {fuel rem : Nat} {s : State} {c : HaltCause} {r : Regs}
    (hr : s.run = .halted c r) : advanceLoop fuel rem s = s := by
  cases fuel with
  | zero => rfl
  | succ fuel => rw [advanceLoop, andThen_halted hr]

/-- More passes than cycles are enough once the outstanding action lies ahead. -/
theorem advanceLoop_fuel {f f' rem : Nat} {s : State} (hs : Ahead s) (hf : rem < f) (hf' : rem < f') :
    advanceLoop f rem s = advanceLoop f' rem s := by
  induction f generalizing f' rem s with
  | zero => omega
  | succ f ih =>
    obtain ⟨g, rfl⟩ : ∃ g, f' = g + 1 := ⟨f' - 1, by omega⟩
    cases hr : s.run with
    | halted c r => rw [advanceLoop_halted hr, advanceLoop_halted hr]
    | running =>
      have hlt := (hs hr).1
      by_cases h : s.regs.nextActionCycle ≤ s.regs.cycle + rem
      · rw [advanceLoop_fire hr h, advanceLoop_fire hr h]
        exact ih (ahead_fire _ _) (by omega) (by omega)
      · rw [advanceLoop_last hr (by omega), advanceLoop_last hr (by omega)]

/-- ADVANCE's body. -/
abbrev advanced (n : Nat) (s : State) : State := advanceLoop (advanceFuel n s) n s

theorem advanced_halted {n : Nat} {s : State} {c : HaltCause} {r : Regs} (hr : s.run = .halted c r) :
    advanced n s = s := advanceLoop_halted hr

/-- ADVANCE with no action due (R130). -/
theorem advanced_last {n : Nat} {s : State} (hr : s.Running)
    (h : s.regs.cycle + n < s.regs.nextActionCycle) :
    advanced n s = s.withRegs fun r => { r with cycle := (r.cycle + n) % Config.cyclesPerFrame } :=
  advanceLoop_last hr h

/-- ADVANCE with an action due: fire it and go on with the remainder (R130). -/
theorem advanced_fire {n : Nat} {s : State} (hr : s.Running)
    (h : s.regs.nextActionCycle ≤ s.regs.cycle + n) :
    advanced n s =
      advanced (s.regs.cycle + n - s.regs.nextActionCycle) (fire s.regs.nextAction (arrive s)) := by
  rw [advanced, advanceFuel, advanceLoop_fire hr h]
  exact advanceLoop_fuel (ahead_fire _ _) (by omega) (by simp only [advanceFuel]; omega)

/-- A property of (state, cycles left) along ADVANCE: from any state, by the two kinds of pass. -/
theorem advanced_induct {motive : Nat → State → Prop}
    (halted : ∀ n s c r, s.run = .halted c r → motive n s)
    (last : ∀ n s, s.Running → s.regs.cycle + n < s.regs.nextActionCycle → motive n s)
    (fires : ∀ n s, s.Running → s.regs.nextActionCycle ≤ s.regs.cycle + n →
      motive (s.regs.cycle + n - s.regs.nextActionCycle) (fire s.regs.nextAction (arrive s)) →
      motive n s)
    (n : Nat) (s : State) : motive n s := by
  have main : ∀ k n s, Ahead s → n ≤ k → motive n s := by
    intro k
    induction k with
    | zero =>
      intro n s hs hn
      cases hr : s.run with
      | halted c r => exact halted n s c r hr
      | running => exact last n s hr (by have := (hs hr).1; omega)
    | succ k ih =>
      intro n s hs hn
      cases hr : s.run with
      | halted c r => exact halted n s c r hr
      | running =>
        by_cases h : s.regs.nextActionCycle ≤ s.regs.cycle + n
        · exact fires n s hr h (ih _ _ (ahead_fire _ _) (by have := (hs hr).1; omega))
        · exact last n s hr (by omega)
  cases hr : s.run with
  | halted c r => exact halted n s c r hr
  | running =>
    by_cases h : s.regs.nextActionCycle ≤ s.regs.cycle + n
    · exact fires n s hr h (main _ _ _ (ahead_fire _ _) le_rfl)
    · exact last n s hr (by omega)

/-! ### What an action leaves of the clock -/

/-- The instruction of an action runs that action's body. -/
theorem exec_instrOfAction (a : Action) (s : State) :
    exec (instrOfAction a) s = perform (fire a) s := by
  cases a <;> rfl

theorem schedule_cycle (a : Action) (c : Nat) (s : State) :
    (schedule a c s).regs.cycle = s.regs.cycle := by
  rw [schedule]; split <;> rfl

theorem rebuildGrid_regs (s : State) : (rebuildGrid s).regs = s.regs := by
  rw [rebuildGrid]; split <;> rfl

theorem refreshGrid_regs (s : State) : (refreshGrid s).regs = s.regs := by
  rw [refreshGrid]; split
  · rfl
  · exact rebuildGrid_regs s

theorem predict_regs (s : State) : (predict s).2.regs = s.regs := by
  rcases predict_cases s with ⟨e, -⟩ | ⟨e, -⟩
  · rw [e, halt_regs]
  · rw [e]

/-- Whatever both continuations of `andThen` keep, it keeps. -/
theorem andThen_keeps {α : Type} (p : State → α) {s : State} {f : State → State}
    (hf : p (f s) = p s) : p (s.andThen f) = p s := by
  rcases andThen_cases s f with ⟨-, e⟩ | ⟨-, e⟩ <;> rw [e]
  exact hf

theorem scheduleHit_cycle (h : Option Nat) (s : State) :
    (scheduleHit h s).regs.cycle = s.regs.cycle := by
  cases h <;> exact schedule_cycle _ _ s

theorem finishDraw_cycle (p : Option Nat × State) :
    (finishDraw p).regs.cycle = p.2.regs.cycle :=
  andThen_keeps (·.regs.cycle) (scheduleHit_cycle _ _)

/-- No action moves the cycle (R131: only ADVANCE does). -/
theorem fire_cycle (a : Action) (s : State) : (fire a s).regs.cycle = s.regs.cycle := by
  cases a with
  | vblankStart => exact schedule_cycle _ _ _
  | vblankEnd =>
    rw [fire, actVblankEnd]
    refine (andThen_keeps (·.regs.cycle) ?_).trans (congrArg Regs.cycle (rebuildGrid_regs s))
    rw [schedule_cycle, withRegs_regs, decodeSprites_regs]
  | draw =>
    rw [fire, actDraw]
    refine (andThen_keeps (·.regs.cycle) ?_).trans (by rw [refreshGrid_regs]; rfl)
    rw [finishDraw_cycle, predict_regs, present_regs]
  | sprite0Hit => exact schedule_cycle _ _ _

/-- ADVANCE 0 with the outstanding action ahead and the cycle in the frame changes nothing. -/
theorem advanced_zero {s : State} (hs : Ahead s) (hc : s.regs.cycle < Config.cyclesPerFrame) :
    advanced 0 s = s := by
  cases hr : s.run with
  | halted c r => exact advanced_halted hr
  | running =>
    rw [advanced_last hr (by have := (hs hr).1; omega)]
    simp only [State.withRegs, Nat.add_zero, Nat.mod_eq_of_lt hc]

/-! ### Halts inside actions -/

/-- In a Halted state the snapshot is the registers (R225, R232). -/
abbrev SnapshotFaithful (s : State) : Prop := ∀ c r, s.run = .halted c r → r = s.regs

theorem snapshot_of_running {s : State} (h : s.Running) : SnapshotFaithful s := by
  intro c r hr; rw [h] at hr; cases hr

theorem snapshot_halt (s : State) (c : HaltCause) : SnapshotFaithful (s.halt c) := by
  intro c' r hr
  simp only [halt_run, Run.halted.injEq] at hr
  exact hr.2.symm

theorem snapshot_schedule {a : Action} {c : Nat} {s : State} (h : s.Running) :
    SnapshotFaithful (schedule a c s) := by
  rcases schedule_cases a c s with ⟨-, e⟩ | ⟨-, e⟩ <;> rw [e]
  · exact snapshot_of_running (s := { s with regs := _ }) h
  · exact snapshot_halt s _

theorem snapshot_andThen {s : State} {f : State → State} (h : SnapshotFaithful s)
    (hf : s.Running → SnapshotFaithful (f s)) : SnapshotFaithful (s.andThen f) := by
  rcases andThen_cases s f with ⟨hr, e⟩ | ⟨-, e⟩ <;> rw [e]
  · exact hf hr
  · exact h

theorem snapshot_rebuildGrid {s : State} (h : s.Running) : SnapshotFaithful (rebuildGrid s) := by
  rw [rebuildGrid]; split
  · exact snapshot_of_running (s := { s with grid := _, gridValid := _ }) h
  · exact snapshot_halt s _

theorem snapshot_predict {s : State} (h : s.Running) : SnapshotFaithful (predict s).2 := by
  rcases predict_cases s with ⟨e, -⟩ | ⟨e, -⟩
  · rw [e]; exact snapshot_halt s _
  · rw [e]; exact snapshot_of_running (s := { s with tileCache := _ }) h

theorem snapshot_scheduleHit (h : Option Nat) {s : State} (hr : s.Running) :
    SnapshotFaithful (scheduleHit h s) := by
  cases h <;> exact snapshot_schedule hr

theorem snapshot_finishDraw {p : Option Nat × State} (h : SnapshotFaithful p.2) :
    SnapshotFaithful (finishDraw p) :=
  snapshot_andThen h fun hr => snapshot_scheduleHit _ hr

/-- A halt inside an action leaves a faithful snapshot. -/
theorem snapshot_fire (a : Action) {s : State} (h : s.Running) : SnapshotFaithful (fire a s) := by
  cases a with
  | vblankStart => exact snapshot_schedule (s := s.withRegs _) h
  | vblankEnd =>
    rw [fire, actVblankEnd]
    refine snapshot_andThen (snapshot_rebuildGrid h) fun hr => snapshot_schedule ?_
    rw [State.Running, withRegs_run, decodeSprites_run]
    exact hr
  | draw =>
    rw [fire, actDraw]
    refine snapshot_andThen ?_ fun hr => ?_
    · rw [refreshGrid]; split
      · exact snapshot_of_running h
      · exact snapshot_rebuildGrid h
    · exact snapshot_finishDraw (snapshot_predict (s := present _) hr)
  | sprite0Hit => exact snapshot_schedule (s := s.withRegs _) h

end Sys2Proof.Machine
end

