-- ==== Sys2Proof/Laws/Actions.lean ====
section
/-! SUPPORT. Each event action as an equation, by the case it takes; ADVANCE's answer; what RebuildGrid and
DecodeSprites show. -/

namespace Sys2Proof.Machine

open Sys2Proof

/-! ### ADVANCE -/

/-- ADVANCE always answers a next state (R130). -/
theorem exec_advance (n : Nat) (s : State) :
    exec (.advance n) s = .next (advanced n s.clearReply) := by
  change perform _ s = _
  cases hr : s.run with
  | running => exact perform_running hr _
  | halted c r => rw [perform_halted hr, advanced_halted (s := s.clearReply) hr]

theorem advanced_reply (n : Nat) (s : State) : (advanced n s).reply = s.reply :=
  (frame_advanceLoop _ n s).reply

/-! ### VBLANK_START and SPRITE0_HIT (R133, R136) -/

theorem actVblankStart_ok {s : State} (h : s.regs.cycle < s.params.vblankEndCycle)
    (h' : s.params.vblankEndCycle ≤ Config.cyclesPerFrame) :
    actVblankStart s = s.withRegs fun r =>
      { r with
        stat := { r.stat with vblank := true }
        nmiPending := r.nmiPending || r.ctrl.nmiEnable
        nextAction := .vblankEnd
        nextActionCycle := s.params.vblankEndCycle } := by
  rw [actVblankStart, schedule_ok (by exact h) h']
  rfl

theorem actVblankStart_bad {s : State}
    (h : s.params.vblankEndCycle ≤ s.regs.cycle ∨ Config.cyclesPerFrame < s.params.vblankEndCycle) :
    actVblankStart s = (s.withRegs fun r =>
      { r with
        stat := { r.stat with vblank := true }
        nmiPending := r.nmiPending || r.ctrl.nmiEnable }).halt .schedulerInvariant := by
  rw [actVblankStart, schedule_bad (by exact h)]

theorem actSprite0Hit_ok {s : State} (h : s.regs.cycle < s.params.vblankStartCycle)
    (h' : s.params.vblankStartCycle ≤ Config.cyclesPerFrame) :
    actSprite0Hit s = s.withRegs fun r =>
      { r with
        stat := { r.stat with spr0Hit := true }
        nextAction := .vblankStart
        nextActionCycle := s.params.vblankStartCycle } := by
  rw [actSprite0Hit, schedule_ok (by exact h) h']
  rfl

theorem actSprite0Hit_bad {s : State}
    (h : s.params.vblankStartCycle ≤ s.regs.cycle ∨
      Config.cyclesPerFrame < s.params.vblankStartCycle) :
    actSprite0Hit s = (s.withRegs fun r =>
      { r with stat := { r.stat with spr0Hit := true } }).halt .schedulerInvariant := by
  rw [actSprite0Hit, schedule_bad (by exact h)]

/-! ### VBLANK_END (R134) -/

theorem mirroringSupported_iff (m : Mapper) :
    mirroringSupported m = true ↔ mirroringOf m ≠ .other := by
  rw [mirroringSupported]; cases mirroringOf m <;> simp

/-- The state with the grid of its present nametable (R191). -/
abbrev withBuiltGrid (s : State) : State :=
  { s with grid := builtGrid s.mapper s.regs.ctrl.ntBase, gridValid := true }

theorem rebuildGrid_supported {s : State} (h : mirroringOf s.mapper ≠ .other) :
    rebuildGrid s = withBuiltGrid s :=
  rebuildGrid_ok ((mirroringSupported_iff _).mpr h)

theorem rebuildGrid_unsupported {s : State} (h : mirroringOf s.mapper = .other) :
    rebuildGrid s = s.halt .unsupportedMirroring :=
  rebuildGrid_bad (by rw [mirroringSupported, h])

theorem actVblankEnd_ok {s : State} (hr : s.Running) (hm : mirroringOf s.mapper ≠ .other)
    (hc : s.regs.cycle < Config.cyclesPerFrame) :
    actVblankEnd s = (decodeSprites (withBuiltGrid s)).withRegs fun r =>
      { r with
        stat := { r.stat with spr0Hit := false, vblank := false }
        nextAction := .draw
        nextActionCycle := Config.cyclesPerFrame } := by
  rw [actVblankEnd, rebuildGrid_supported hm, andThen_running (by exact hr), schedule_ok ?_ le_rfl]
  · generalize decodeSprites (withBuiltGrid s) = u
    rfl
  · rw [withRegs_regs, decodeSprites_regs]; exact hc

/-- VBLANK_END at a cycle not before the frame's end: all but its Schedule, then F2 (R132, R134). -/
theorem actVblankEnd_late {s : State} (hr : s.Running) (hm : mirroringOf s.mapper ≠ .other)
    (hc : Config.cyclesPerFrame ≤ s.regs.cycle) :
    actVblankEnd s = ((decodeSprites (withBuiltGrid s)).withRegs fun r =>
      { r with stat := { r.stat with spr0Hit := false, vblank := false } }).halt
        .schedulerInvariant := by
  rw [actVblankEnd, rebuildGrid_supported hm, andThen_running (by exact hr), schedule_bad]
  rw [withRegs_regs, decodeSprites_regs]
  exact .inl hc

theorem actVblankEnd_bad {s : State} (hm : mirroringOf s.mapper = .other) :
    actVblankEnd s = s.halt .unsupportedMirroring := by
  rw [actVblankEnd, rebuildGrid_unsupported hm, andThen_halted (halt_run _ _)]

/-! ### DRAW (R135) -/

/-- DRAW's first statement. -/
abbrev countFrame (s : State) : State := s.withRegs fun r => { r with frame := r.frame + 1 }

theorem actDraw_valid {s : State} (hr : s.Running) (hg : s.gridValid = true) :
    actDraw s = finishDraw (predict (present (countFrame s))) := by
  rw [actDraw, refreshGrid, if_pos (by exact hg), andThen_running (by exact hr)]

theorem actDraw_rebuild {s : State} (hr : s.Running) (hg : s.gridValid = false)
    (hm : mirroringOf s.mapper ≠ .other) : actDraw s = actDraw (withBuiltGrid s) := by
  rw [actDraw_valid (s := withBuiltGrid s) (by exact hr) rfl, actDraw, refreshGrid,
    if_neg (by rw [withRegs_gridValid, hg]; exact Bool.false_ne_true),
    rebuildGrid_supported (by exact hm), andThen_running (by exact hr)]
  rfl

theorem actDraw_bad {s : State} (hg : s.gridValid = false) (hm : mirroringOf s.mapper = .other) :
    actDraw s = (countFrame s).halt .unsupportedMirroring := by
  rw [actDraw, refreshGrid, if_neg (by rw [withRegs_gridValid, hg]; exact Bool.false_ne_true),
    rebuildGrid_unsupported (by exact hm), andThen_halted (halt_run _ _)]

/-- Predict's early exits (R201, R202). -/
theorem predict_off {s : State}
    (h : s.regs.mask.showBg = false ∨ s.regs.mask.showSpr = false ∨ 240 ≤ (oamByte s 0).toNat + 1) :
    predict s = (none, s) := by
  rw [predict]
  rcases h with h | h | h
  · rw [if_pos (by rw [h]; rfl)]
  · rw [if_pos (by rw [h]; cases s.regs.mask.showBg <;> rfl)]
  · split
    · rfl
    · rw [if_pos (show Config.visibleScanlines ≤ sprite0Top s from h)]

/-- Predict's size test (R203). -/
theorem predict_tall {s : State} (hb : s.regs.mask.showBg = true) (hs : s.regs.mask.showSpr = true)
    (hy : (oamByte s 0).toNat + 1 < 240) (ht : s.regs.ctrl.sprSize = true) :
    predict s = (none, s.halt .sprite8x16) := by
  rw [predict, if_neg (by rw [hb, hs]; exact Bool.false_ne_true),
    if_neg (show ¬ Config.visibleScanlines ≤ sprite0Top s from Nat.not_le.mpr hy), if_pos ht]

/-- Predict's scan (R204). -/
theorem predict_scan {s : State} (hb : s.regs.mask.showBg = true) (hs : s.regs.mask.showSpr = true)
    (hy : (oamByte s 0).toNat + 1 < 240) (ht : s.regs.ctrl.sprSize = false) :
    predict s =
      predictScan (tileValue s s.regs.ctrl.sprTable (slotByte s 0 1)) (List.range 64)
        (tileFill s.regs.ctrl.sprTable (slotByte s 0 1) s) := by
  rw [predict, if_neg (by rw [hb, hs]; exact Bool.false_ne_true),
    if_neg (show ¬ Config.visibleScanlines ≤ sprite0Top s from Nat.not_le.mpr hy),
    if_neg (by rw [ht]; exact Bool.false_ne_true)]

/-- DRAW with the predictor off (R135, R201, R202). -/
theorem actDraw_off {s : State} (hr : s.Running) (hg : s.gridValid = true)
    (h : s.regs.mask.showBg = false ∨ s.regs.mask.showSpr = false ∨ 240 ≤ (oamByte s 0).toNat + 1) :
    actDraw s =
      schedule .vblankStart s.params.vblankStartCycle (present (countFrame s)) := by
  rw [actDraw_valid hr hg, predict_off (s := present (countFrame s)) h, finishDraw,
    andThen_running (s := present (countFrame s)) hr]
  rfl

/-- DRAW in 8x16 mode with the predictor on (R203, R224). -/
theorem actDraw_tall {s : State} (hr : s.Running) (hg : s.gridValid = true)
    (hb : s.regs.mask.showBg = true) (hs : s.regs.mask.showSpr = true)
    (hy : (oamByte s 0).toNat + 1 < 240) (ht : s.regs.ctrl.sprSize = true) :
    actDraw s = (present (countFrame s)).halt .sprite8x16 := by
  rw [actDraw_valid hr hg, predict_tall (s := present (countFrame s)) hb hs hy ht, finishDraw,
    andThen_halted (halt_run _ _)]

/-! ### What the pipeline's outputs show -/

theorem builtGrid_shows (m : Mapper) (n : Bits2) : GridShows m n (builtGrid m n) := by
  intro row col hr hc
  rw [gridCell_builtGrid m n hr hc]
  refine ⟨rfl, ?_⟩
  simp only [builtCell, quadrantSel, ntAttrAddr, quadrantShift]
  simp [Nat.shiftRight_eq_div_pow]

theorem slotSprite_shows (s : State) (k : Nat) :
    SpriteShows s k (tileValue s s.regs.ctrl.sprTable (oamByte s (4 * k + 1))) (slotSprite s k) where
  yTop := by
    have := (oamByte s (4 * k)).isLt
    simp [slotSprite, spriteOf, slotByte]; omega
  tileId := rfl
  palSel := by simp [slotSprite, spriteOf, slotByte, attrPalSel]
  priority := rfl
  flipH := rfl
  flipV := rfl
  x := rfl
  rows := by intro r c; simp [slotSprite, spriteOf, slotByte, flipCoord, attrFlipH, attrFlipV]

/-- What DecodeSprites leaves after RebuildGrid is what the pipeline computes (R191, R193). -/
theorem rendered_decodeSprites (s : State) : Rendered s (decodeSprites (withBuiltGrid s)) := by
  have hg := decodeSprites_grid (withBuiltGrid s)
  have hs := decodeSprites_sprites (withBuiltGrid s)
  have hc := decodeSprites_filled (withBuiltGrid s)
  have ho : ∀ a, oamByte (withBuiltGrid s) a = oamByte s a := fun a => by rw [oamByte, oamByte]
  simp only [ho] at hc
  generalize decodeSprites (withBuiltGrid s) = u at *
  refine ⟨?_, fun k => ?_, cacheFilled_of_eq hc rfl rfl rfl⟩
  · rw [hg]; exact builtGrid_shows _ _
  · rw [hs, slotSprite_congr (s := s) (t := withBuiltGrid s) rfl rfl rfl]
    exact slotSprite_shows s k

/-- Rendered speaks of OAM, Control, the mapper, the caches, the grid and the sprites only. -/
theorem rendered_of_eq {s s' t t' : State} (h : Rendered s t) (ho : s'.regs.oam = s.regs.oam)
    (hk : s'.regs.ctrl = s.regs.ctrl) (hm : s'.mapper = s.mapper)
    (hsc : s'.tileCache = s.tileCache) (hg : t'.grid = t.grid) (hs : t'.sprites = t.sprites)
    (hc : t'.tileCache = t.tileCache) : Rendered s' t' := by
  have hb : ∀ a, oamByte s' a = oamByte s a := fun a => by rw [oamByte, oamByte, ho]
  refine ⟨by rw [hg, hm, hk]; exact h.grid, fun k => ?_, ?_⟩
  · rw [hs, hb, hk, tileValue_congr hsc hm]
    have := h.sprites k
    exact ⟨by rw [hb]; exact this.yTop, by rw [hb]; exact this.tileId, by rw [hb]; exact this.palSel,
      by rw [hb]; exact this.priority, by rw [hb]; exact this.flipH, by rw [hb]; exact this.flipV,
      by rw [hb]; exact this.x, this.rows⟩
  · simp only [hb, hk]
    exact cacheFilled_of_eq h.cache hsc hm hc

/-! ### What Predict finds and looks up (R204, R207) -/

/-- Sprite 0's tile, as Predict looks it up. -/
abbrev sprite0Tile (s : State) : Tile := tileValue s s.regs.ctrl.sprTable (slotByte s 0 1)

/-- The screen column and row of footprint pixel `k`. -/
abbrev footX (s : State) (k : Nat) : Nat := (slotByte s 0 3).toNat + k % 8
abbrev footY (s : State) (k : Nat) : Nat := sprite0Top s + k / 8

/-- Footprint pixel `k` is on screen and the sprite opaque there exactly where R204 says. -/
theorem spriteAt_iff {s : State} {k : Nat} (hk : k < 64) :
    spriteAt (sprite0Tile s) s k = true ↔ s.SpriteOpaque (footX s k) (footY s k) := by
  have e : sprite0Top s = (slotByte s 0 0).toNat + 1 := rfl
  simp only [spriteAt, State.SpriteOpaque, Bool.and_eq_true, isOpaque, bne_iff_ne, sprite0Pixel,
    flipCoord, attrFlipH, attrFlipV, Config.visibleScanlines, Config.visibleColumns, footX, footY, e,
    Nat.add_sub_cancel_left]
  constructor
  · rintro ⟨⟨a, b⟩, c⟩
    exact ⟨⟨by omega, by omega, of_decide_eq_true a⟩, ⟨by omega, by omega, of_decide_eq_true b⟩, c⟩
  · rintro ⟨⟨-, -, a⟩, ⟨-, -, b⟩, c⟩
    exact ⟨⟨decide_eq_true a, decide_eq_true b⟩, c⟩

/-- Footprint pixel `k` is a hit exactly where the screen pixel is opaque in both layers (R204). -/
theorem hitAt_iff {s : State} {k : Nat} (hk : k < 64) :
    hitAt (sprite0Tile s) s k = true ↔ s.DoublyOpaque (footX s k) (footY s k) := by
  have hpx : ∀ t r c, tilePixel t (r % 8) (c % 8) = tilePixel t r c := by
    intro t r c; simp [tilePixel]
  have he : hitAt (sprite0Tile s) s k = (spriteAt (sprite0Tile s) s k &&
      isOpaque (tilePixel (tileValue s s.regs.ctrl.bgTable (bgTileAt s k)) (footY s k)
        (footX s k))) := rfl
  rw [he, Bool.and_eq_true, spriteAt_iff hk, State.DoublyOpaque, hpx, isOpaque, bne_iff_ne]
  rfl

/-- A pixel where the sprite is opaque lies in the footprint. -/
theorem spriteOpaque_footprint {s : State} {x y : Nat} (h : s.SpriteOpaque x y) :
    ∃ k, k < 64 ∧ x = footX s k ∧ y = footY s k := by
  have h1 := h.1
  have h2 := h.2.1
  have e : sprite0Top s = (slotByte s 0 0).toNat + 1 := rfl
  exact ⟨(y - sprite0Top s) * 8 + (x - (slotByte s 0 3).toNat), by omega,
    by simp only [footX]; omega, by simp only [footY]; omega⟩

/-- Footprint pixels in the scan's order are in raster order. -/
theorem foot_le_iff {s : State} {k j : Nat} :
    footY s k * 341 + footX s k ≤ footY s j * 341 + footX s j ↔ k ≤ j := by
  simp only [footX, footY]; omega

/-- A footprint pixel has no hit before it exactly if the scan has met none. -/
theorem noHitBefore_iff {s : State} {k : Nat} (hk : k < 64) :
    s.NoHitBefore (footX s k) (footY s k) ↔ ∀ j < k, hitAt (sprite0Tile s) s j = false := by
  constructor
  · intro h j hj
    by_contra hhit
    have := h _ _ ((hitAt_iff (by omega)).mp (Bool.not_eq_false _ ▸ hhit))
    rw [foot_le_iff] at this
    omega
  · intro h x y hxy
    obtain ⟨j, hj, rfl, rfl⟩ := spriteOpaque_footprint hxy.1
    rw [foot_le_iff]
    by_contra hlt
    exact Bool.false_ne_true ((h j (by omega)).symm.trans ((hitAt_iff hj).mpr hxy))

/-- What Predict's scan returns for the state's sprite and grid (R204). -/
def Predicted (s : State) : Option Nat → Prop
  | some c => ∃ x y, s.DoublyOpaque x y ∧ s.NoHitBefore x y ∧
      c = y * 341 + x + s.params.sprite0CycleOffset
  | none => ∀ x y, ¬ s.DoublyOpaque x y

/-- A state has one prediction. -/
theorem predicted_unique {s : State} {h h' : Option Nat} (p : Predicted s h) (p' : Predicted s h') :
    h = h' := by
  rcases h with _ | c <;> rcases h' with _ | c'
  · rfl
  · obtain ⟨x, y, hd, -⟩ := p'; exact absurd hd (p x y)
  · obtain ⟨x, y, hd, -⟩ := p; exact absurd hd (p' x y)
  · obtain ⟨x, y, hd, hf, rfl⟩ := p
    obtain ⟨x', y', hd', hf', rfl⟩ := p'
    have h1 := hf _ _ hd'
    have h2 := hf' _ _ hd
    rw [Nat.le_antisymm h1 h2]

theorem predict_predicted {s : State} (hb : s.regs.mask.showBg = true)
    (hs : s.regs.mask.showSpr = true) (hy : (oamByte s 0).toNat + 1 < 240)
    (ht : s.regs.ctrl.sprSize = false) : Predicted s (predict s).1 := by
  rw [predict_scan hb hs hy ht, predictScan_fst, funext (hitAt_tileFill _ _ _ s),
    funext (hitCycleAt_tileFill _ _ s)]
  cases hfind : (List.range 64).find? (hitAt (sprite0Tile s) s) with
  | none =>
    intro x y hxy
    obtain ⟨k, hk, rfl, rfl⟩ := spriteOpaque_footprint hxy.1
    exact List.find?_eq_none.mp hfind k (List.mem_range.mpr hk) ((hitAt_iff hk).mpr hxy)
  | some k =>
    obtain ⟨hhit, hmem, hbefore⟩ := List.find?_range_eq_some.mp hfind
    have hk : k < 64 := List.mem_range.mp hmem
    exact ⟨footX s k, footY s k, (hitAt_iff hk).mp hhit,
      (noHitBefore_iff hk).mpr fun j hj => by simpa using hbefore j hj, rfl⟩

/-- The background tiles the whole scan looks up (R207). -/
theorem scanLooksUp_iff (s : State) (half : BitVec 1) (id : Byte) :
    scanLooksUp (sprite0Tile s) s (List.range 64) half id ↔
      ∃ x y, s.SpriteOpaque x y ∧ s.NoHitBefore x y ∧ half = s.regs.ctrl.bgTable ∧
        id = (gridCell s.grid (y / 8) (x / 8)).tileId := by
  constructor
  · rintro ⟨pre, k, post, he, hpre, hspr, h⟩
    have hlen : pre.length < 64 := by
      have := congrArg List.length he
      simp only [List.length_range, List.length_append, List.length_cons] at this
      omega
    have hat : ∀ j, j ≤ pre.length → (pre ++ k :: post)[j]? = some j := by
      intro j hj
      rw [← he, List.getElem?_range (by omega)]
    have hk : k = pre.length := by
      have := hat pre.length le_rfl
      rw [List.getElem?_append_right le_rfl, Nat.sub_self] at this
      exact Option.some.inj this
    subst hk
    refine ⟨_, _, (spriteAt_iff hlen).mp hspr, (noHitBefore_iff hlen).mpr fun j hj => ?_, h⟩
    have := hat j hj.le
    rw [List.getElem?_append_left hj] at this
    exact hpre j (List.mem_of_getElem? this)
  · rintro ⟨x, y, hspr, hfirst, h⟩
    obtain ⟨k, hk, rfl, rfl⟩ := spriteOpaque_footprint hspr
    refine ⟨List.range k, k, (List.range 64).drop (k + 1), ?_, ?_, (spriteAt_iff hk).mpr hspr, h⟩
    · have h1 : (List.range 64).take k = List.range k := by
        rw [List.take_range, Nat.min_eq_left hk.le]
      have h2 : (List.range 64).drop k = k :: (List.range 64).drop (k + 1) := by
        rw [List.drop_eq_getElem_cons (by simpa using hk), List.getElem_range]
      rw [← h1, ← h2, List.take_append_drop]
    · exact fun j hj => (noHitBefore_iff hk).mp hfirst j (List.mem_range.mp hj)

/-- The cache after Predict's scan (R207). -/
theorem predict_filled {s : State} (hb : s.regs.mask.showBg = true)
    (hs : s.regs.mask.showSpr = true) (hy : (oamByte s 0).toNat + 1 < 240)
    (ht : s.regs.ctrl.sprSize = false) : CacheFilled s.DrawLooksUp s (predict s).2 := by
  rw [predict_scan hb hs hy ht]
  have hscan := predictScan_filled (sprite0Tile s) (List.range 64)
    (tileFill s.regs.ctrl.sprTable (slotByte s 0 1) s)
  rw [scanLooksUp_tileFill] at hscan
  exact cacheFilled_congr (cacheFilled_trans (tileFill_filled _ _ s) hscan (tileFill_mapper _ _ _))
    fun half id => by rw [State.DrawLooksUp, scanLooksUp_iff]

/-- DRAW with the predictor on (R135, R204): what it scheduled, on a state that differs from the counted and
presented one in the tiles looked up. -/
theorem actDraw_scan {s : State} (hr : s.Running) (hg : s.gridValid = true)
    (hb : s.regs.mask.showBg = true) (hs : s.regs.mask.showSpr = true)
    (hy : (oamByte s 0).toNat + 1 < 240) (ht : s.regs.ctrl.sprSize = false) :
    ∃ (h : Option Nat) (u : State), actDraw s = scheduleHit h u ∧ Predicted s h ∧
      SameButCache (present (countFrame s)) u ∧ CacheFilled s.DrawLooksUp s u := by
  have hsame : SameButCache (present (countFrame s)) (predict (present (countFrame s))).2 := by
    rw [predict_scan (s := present (countFrame s)) hb hs hy ht]
    exact (tileFill_sameButCache _ _ _).trans (predictScan_same _ _ _)
  refine ⟨_, _, ?_, predict_predicted (s := present (countFrame s)) hb hs hy ht, hsame,
    cacheFilled_of_eq (predict_filled (s := present (countFrame s)) hb hs hy ht) rfl rfl rfl⟩
  rw [actDraw_valid hr hg, finishDraw, andThen_running]
  rw [hsame]
  exact hr

/-- A miss decodes the sixteen bytes the mapper holds (R112, R181). -/
theorem fetchTile_shows (m : Mapper) (half : BitVec 1) (id : Byte) :
    TileShows m half id (fetchTile m half id) := by
  intro r c hr hc
  have e1 : ((r % 8) * 8 + c % 8) / 8 = r := by omega
  have e2 : ((r % 8) * 8 + c % 8) % 8 = c := by omega
  have ea : ∀ p, tileAddr half id + BitVec.ofNat 14 (8 * p + r) =
      BitVec.ofNat 14 (half.toNat * 0x1000 + id.toNat * 16 + (8 * p + r)) := by
    intro p; apply BitVec.eq_of_toNat_eq; simp [tileAddr]
  simp only [tilePixel, fetchTile, decodeTile, Vector.getElem_ofFn, planeBytes, e1, e2, ea, pixelOf]
  simp only [BitVec.toNat_append, BitVec.toNat_ofBool, BitVec.getLsbD,
    Nat.testBit_eq_decide_div_mod_eq]
  simp only [Nat.mul_zero, Nat.zero_add, Nat.mul_one, Nat.add_assoc]
  generalize (BitVec.toNat (ppuRead m _)) / 2 ^ (7 - c) = a
  generalize (BitVec.toNat (ppuRead m _)) / 2 ^ (7 - c) = b
  rcases Nat.mod_two_eq_zero_or_one a with ha | ha <;>
    rcases Nat.mod_two_eq_zero_or_one b with hb | hb <;> simp [ha, hb]

/-- In a faithful state Tile returns the decode of the mapper's present bytes (R185). -/
theorem tileValue_faithful {s : State} (h : s.CacheFaithful) (half : BitVec 1) (id : Byte) :
    tileValue s half id = fetchTile s.mapper half id := by
  rw [tileValue]
  cases hc : s.tileCache[tileKey half id] with
  | none => rfl
  | some t => exact h half id t hc

end Sys2Proof.Machine
end

