-- ==== Sys2Proof/Laws/Clock.lean ====
section
/-! SUPPORT. The clock under R8: where each action leaves the outstanding action, the frame and the cycle. -/

namespace Sys2Proof.Machine

open Sys2Proof

/-- What one action leaves, when it does not halt: its successor outstanding, ahead of the cycle, within
the frame; and it never halts with F2. -/
structure ClockAfter (t : State) : Prop where
  clock : t.Running → ClockOk t.params t.regs
  noF2 : ∀ r, t.run ≠ .halted .schedulerInvariant r

theorem clockAfter_schedule {a : Action} {c : Nat} {s : State} (hr : s.Running)
    (h : s.regs.cycle < c) (h' : c ≤ Config.cyclesPerFrame) (hl : ActionCycleLegal s.params a c) :
    ClockAfter (schedule a c s) := by
  rw [schedule_ok h h']
  exact ⟨fun _ => ⟨h, h', hl⟩, fun r e => by rw [State.Running] at hr; simp [hr] at e⟩

theorem clockAfter_halt {c : HaltCause} (hc : c ≠ .schedulerInvariant) (s : State) :
    ClockAfter (s.halt c) := by
  refine ⟨fun h => ?_, fun r e => ?_⟩
  · simp [State.Running] at h
  · simp only [halt_run, Run.halted.injEq] at e; exact hc e.1

theorem clockAfter_andThen {s : State} {f : State → State} (h : s.Running → ClockAfter (f s))
    (hs : ∀ c r, s.run = .halted c r → c ≠ .schedulerInvariant) : ClockAfter (s.andThen f) := by
  rcases andThen_cases s f with ⟨hr, e⟩ | ⟨⟨c, r, hr⟩, e⟩ <;> rw [e]
  · exact h hr
  · refine ⟨fun h => ?_, fun r' e => ?_⟩
    · rw [State.Running, hr] at h; cases h
    · rw [hr] at e; simp only [Run.halted.injEq] at e; exact hs c r hr e.1

/-- RebuildGrid halts with U2 only (R194). -/
theorem rebuildGrid_halt {s : State} (h : s.Running) {c : HaltCause} {r : Regs}
    (hc : (rebuildGrid s).run = .halted c r) : c = .unsupportedMirroring := by
  rw [rebuildGrid] at hc
  split at hc
  · rw [State.Running] at h; simp [h] at hc
  · simp only [halt_run, Run.halted.injEq] at hc; exact hc.1.symm

theorem refreshGrid_halt {s : State} (h : s.Running) {c : HaltCause} {r : Regs}
    (hc : (refreshGrid s).run = .halted c r) : c = .unsupportedMirroring := by
  rw [refreshGrid] at hc
  split at hc
  · rw [State.Running] at h; simp [h] at hc
  · exact rebuildGrid_halt h hc

/-- Predict halts with U1 only (R203). -/
theorem predict_halt {s : State} (h : s.Running) {c : HaltCause} {r : Regs}
    (hc : (predict s).2.run = .halted c r) : c = .sprite8x16 := by
  rcases predict_cases s with ⟨e, -⟩ | ⟨e, -⟩
  · rw [e] at hc; simp only [halt_run, Run.halted.injEq] at hc; exact hc.1.symm
  · rw [State.Running] at h; rw [e] at hc; simp [h] at hc

theorem clockAfter_vblankStart {s : State} (hr : s.Running) (hp : s.params.Ok)
    (hc : s.regs.cycle = s.params.vblankStartCycle) : ClockAfter (actVblankStart s) :=
  clockAfter_schedule (s := s.withRegs _) hr
    (show s.regs.cycle < s.params.vblankEndCycle by have := hp.2.1; omega) (Nat.le_of_lt hp.2.2) rfl

theorem clockAfter_sprite0Hit {s : State} (hr : s.Running) (hp : s.params.Ok)
    (hc : s.regs.cycle ≤ 81754 + s.params.sprite0CycleOffset) : ClockAfter (actSprite0Hit s) :=
  clockAfter_schedule (s := s.withRegs _) hr
    (show s.regs.cycle < s.params.vblankStartCycle by have := hp.1; omega)
    (Nat.le_of_lt (hp.2.1.trans hp.2.2)) rfl

theorem clockAfter_vblankEnd {s : State} (hr : s.Running) (hc : s.regs.cycle < Config.cyclesPerFrame) :
    ClockAfter (actVblankEnd s) := by
  rw [actVblankEnd]
  refine clockAfter_andThen (fun h => clockAfter_schedule ?_ ?_ le_rfl rfl) fun c r e => ?_
  · rw [State.Running, withRegs_run, decodeSprites_run]; exact h
  · rw [withRegs_regs, decodeSprites_regs, rebuildGrid_regs]; exact hc
  · rw [rebuildGrid_halt hr e]; exact HaltCause.noConfusion

theorem clockAfter_scheduleHit {h : Option Nat} {s : State} (hr : s.Running) (hp : s.params.Ok)
    (hc : s.regs.cycle = 0) (hh : ∀ c, h = some c →
      341 + s.params.sprite0CycleOffset ≤ c ∧ c ≤ 81754 + s.params.sprite0CycleOffset) :
    ClockAfter (scheduleHit h s) := by
  obtain ⟨h1, h2, h3⟩ := hp
  cases h with
  | none => exact clockAfter_schedule hr (by omega) (by omega) rfl
  | some c =>
    obtain ⟨h4, h5⟩ := hh c rfl
    exact clockAfter_schedule hr (by omega) (by omega) ⟨h4, h5⟩

theorem clockAfter_finishDraw {s : State} (hr : s.Running) (hp : s.params.Ok)
    (hc : s.regs.cycle = 0) : ClockAfter (finishDraw (predict s)) := by
  have hf := frame_predict s
  refine clockAfter_andThen (fun h => clockAfter_scheduleHit h ?_ ?_ fun c e => ?_) fun c r e => ?_
  · rw [hf.params]; exact hp
  · rw [predict_regs]; exact hc
  · rw [hf.params]
    rcases predict_cases s with ⟨e', -⟩ | ⟨-, hb⟩
    · rw [e'] at e; cases e
    · exact hb c e
  · rw [predict_halt hr e]; exact HaltCause.noConfusion

theorem clockAfter_draw {s : State} (hr : s.Running) (hp : s.params.Ok) (hc : s.regs.cycle = 0) :
    ClockAfter (actDraw s) := by
  rw [actDraw]
  have hr' : State.Running (s.withRegs fun r => { r with frame := r.frame + 1 }) := hr
  have hf := frame_refreshGrid (s.withRegs fun r => { r with frame := r.frame + 1 })
  refine clockAfter_andThen (fun h => clockAfter_finishDraw h ?_ ?_) fun c r e => ?_
  · rw [present_params, hf.params]; exact hp
  · rw [present_regs, refreshGrid_regs]; exact hc
  · rw [refreshGrid_halt hr' e]; exact HaltCause.noConfusion

/-- Firing the outstanding action at its own cycle keeps the clock, and never halts with F2 (R8, R132). -/
theorem clockAfter_fire {s : State} (hr : s.Running) (hp : s.params.Ok)
    (hk : ClockOk s.params s.regs) : ClockAfter (fire s.regs.nextAction (arrive s)) := by
  obtain ⟨h1, h2, h3⟩ := hp
  have hl := hk.legal
  have hcyc : (arrive s).regs.cycle = s.regs.nextActionCycle % Config.cyclesPerFrame := rfl
  have hra : State.Running (arrive s) := hr
  have hpa : Params.Ok (arrive s).params := ⟨h1, h2, h3⟩
  cases ha : s.regs.nextAction with
  | vblankStart =>
    rw [ha] at hl
    change s.regs.nextActionCycle = s.params.vblankStartCycle at hl
    refine clockAfter_vblankStart hra hpa ?_
    rw [hcyc, hl, Nat.mod_eq_of_lt (h2.trans h3)]; rfl
  | vblankEnd => exact clockAfter_vblankEnd hra (by rw [hcyc]; exact Nat.mod_lt _ (by decide))
  | draw =>
    rw [ha] at hl
    change s.regs.nextActionCycle = Config.cyclesPerFrame at hl
    exact clockAfter_draw hra hpa (by rw [hcyc, hl, Nat.mod_self])
  | sprite0Hit =>
    rw [ha] at hl
    obtain ⟨-, hl⟩ := hl
    refine clockAfter_sprite0Hit hra hpa ?_
    rw [hcyc]
    exact (Nat.mod_le _ _).trans hl

/-! ### The frame counter (R141) -/

theorem schedule_frame (a : Action) (c : Nat) (s : State) :
    (schedule a c s).regs.frame = s.regs.frame := by
  rw [schedule]; split <;> rfl

/-- DRAW alone counts a frame (R23, R135). -/
theorem fire_frame (a : Action) (s : State) :
    (fire a s).regs.frame = s.regs.frame + if a = .draw then 1 else 0 := by
  cases a with
  | vblankStart => exact schedule_frame _ _ _
  | vblankEnd =>
    rw [fire, actVblankEnd]
    refine (andThen_keeps (·.regs.frame) ?_).trans (congrArg Regs.frame (rebuildGrid_regs s))
    rw [schedule_frame, withRegs_regs, decodeSprites_regs]
  | draw =>
    rw [fire, actDraw, if_pos rfl]
    refine (andThen_keeps (·.regs.frame) ?_).trans (by rw [refreshGrid_regs]; rfl)
    refine (andThen_keeps (·.regs.frame) ?_).trans (by rw [predict_regs]; rfl)
    cases (predict _).1 <;> exact schedule_frame _ _ _
  | sprite0Hit => exact schedule_frame _ _ _

/-- One pass of ADVANCE's loop that fires moves the absolute time to the action's cycle (R140). -/
theorem fire_time {s : State} (hp : s.params.Ok) (hk : ClockOk s.params s.regs) :
    (fire s.regs.nextAction (arrive s)).regs.frame * 89342 +
        (fire s.regs.nextAction (arrive s)).regs.cycle =
      s.regs.frame * 89342 + s.regs.nextActionCycle := by
  obtain ⟨h1, h2, h3⟩ := hp
  have hl := hk.legal
  have hframe : (arrive s).regs.frame = s.regs.frame := rfl
  have hcyc : (arrive s).regs.cycle = s.regs.nextActionCycle % 89342 := rfl
  simp only [Config.cyclesPerFrame, Config.scanlinesPerFrame, Config.cyclesPerScanline] at h3
  rw [fire_frame, fire_cycle, hframe, hcyc]
  cases ha : s.regs.nextAction <;> rw [ha] at hl <;>
    simp only [ActionCycleLegal, Config.cyclesPerFrame, Config.scanlinesPerFrame,
      Config.cyclesPerScanline] at hl <;> simp <;> omega

end Sys2Proof.Machine
end

