-- ==== Sys2Proof/Laws/Decode.lean ====
section
/-! SUPPORT. The fields of packed words, what the decoder answers, the words of a table row. -/

namespace Sys2Proof

/-! ### Fields (R101) -/

theorem tagOf_toNat (w : CmdWord) : (tagOf w).toNat = w.toNat / 4096 := by
  have := w.isLt
  simp only [tagOf, BitVec.extractLsb'_toNat, Nat.shiftRight_eq_div_pow]
  omega

theorem rwOf_toNat (w : CmdWord) : (rwOf w).toNat = w.toNat / 2048 % 2 := by
  simp [rwOf, Nat.shiftRight_eq_div_pow]

theorem regOf_toNat (w : CmdWord) : (regOf w).toNat = w.toNat / 256 % 8 := by
  simp [regOf, Nat.shiftRight_eq_div_pow]

theorem dataOf_toNat (w : CmdWord) : (dataOf w).toNat = w.toNat % 256 := by
  simp [dataOf]

theorem halfOf_toNat (w : CmdWord) : (halfOf w).toNat = w.toNat / 256 % 2 := by
  simp [halfOf, Nat.shiftRight_eq_div_pow]

theorem packWord_toNat (tag : BitVec 4) (rw : BitVec 1) (reg : BitVec 3) (data : Byte) :
    (packWord tag rw reg data).toNat =
      tag.toNat * 4096 + rw.toNat * 2048 + reg.toNat * 256 + data.toNat := by
  have h1 := tag.isLt; have h2 := rw.isLt; have h3 := reg.isLt; have h4 := data.isLt
  simp only [packWord, BitVec.toNat_append, Nat.shiftLeft_eq]
  rw [← Nat.shiftLeft_eq, ← Nat.shiftLeft_eq, ← Nat.shiftLeft_eq,
    ← Nat.shiftLeft_add_eq_or_of_lt (by omega), ← Nat.shiftLeft_add_eq_or_of_lt (by omega),
    ← Nat.shiftLeft_add_eq_or_of_lt (by omega)]
  simp only [Nat.shiftLeft_eq]
  omega

@[simp] theorem tagOf_packWord (tag : BitVec 4) (rw : BitVec 1) (reg : BitVec 3) (data : Byte) :
    tagOf (packWord tag rw reg data) = tag := by
  have h2 := rw.isLt; have h3 := reg.isLt; have h4 := data.isLt
  apply BitVec.eq_of_toNat_eq
  rw [tagOf_toNat, packWord_toNat]
  omega

@[simp] theorem rwOf_packWord (tag : BitVec 4) (rw : BitVec 1) (reg : BitVec 3) (data : Byte) :
    rwOf (packWord tag rw reg data) = rw := by
  have h2 := rw.isLt; have h3 := reg.isLt; have h4 := data.isLt
  apply BitVec.eq_of_toNat_eq
  rw [rwOf_toNat, packWord_toNat]
  omega

@[simp] theorem regOf_packWord (tag : BitVec 4) (rw : BitVec 1) (reg : BitVec 3) (data : Byte) :
    regOf (packWord tag rw reg data) = reg := by
  have h2 := rw.isLt; have h3 := reg.isLt; have h4 := data.isLt
  apply BitVec.eq_of_toNat_eq
  rw [regOf_toNat, packWord_toNat]
  omega

@[simp] theorem dataOf_packWord (tag : BitVec 4) (rw : BitVec 1) (reg : BitVec 3) (data : Byte) :
    dataOf (packWord tag rw reg data) = data := by
  have h2 := rw.isLt; have h3 := reg.isLt; have h4 := data.isLt
  apply BitVec.eq_of_toNat_eq
  rw [dataOf_toNat, packWord_toNat]
  omega

theorem padHalf_toNat (half : BitVec 1) : (0#2 ++ half : BitVec 3).toNat = half.toNat := by
  revert half; decide

@[simp] theorem halfOf_packWord (tag : BitVec 4) (rw : BitVec 1) (half : BitVec 1) (data : Byte) :
    halfOf (packWord tag rw (0#2 ++ half) data) = half := by
  have h1 := half.isLt; have h2 := rw.isLt; have h4 := data.isLt
  have h3 := padHalf_toNat half
  apply BitVec.eq_of_toNat_eq
  rw [halfOf_toNat, packWord_toNat, h3]
  omega

/-! ### The decoder -/

theorem decode_encodeRead (reg : BitVec 3) :
    decode (encodeRead reg) = busReadInstr reg.toNat := by
  simp [decode, encodeRead, plainCommand, decodeCommand]

theorem decode_encodeWrite (reg : BitVec 3) (d : Byte) :
    decode (encodeWrite reg d) = busWriteInstr reg.toNat d := by
  simp [decode, encodeWrite, plainCommand, decodeCommand]

theorem actionOfCode_codeOfAction (a : Action) : actionOfCode (codeOfAction a) = a := by
  cases a <;> rfl

/-- A reserved tag is refused by name (R117 a). -/
theorem decodeCommand_reserved {c : Command} (h : 7 ≤ c.word.toNat / 4096) :
    decodeCommand c = .error (.reservedTag (BitVec.ofNat 4 (c.word.toNat / 4096))) := by
  have ht : tagOf c.word = BitVec.ofNat 4 (c.word.toNat / 4096) := by
    have := c.word.isLt
    apply BitVec.eq_of_toNat_eq
    rw [tagOf_toNat, BitVec.toNat_ofNat, Nat.mod_eq_of_lt (by omega)]
  rw [← ht, decodeCommand, tagOf_toNat]
  split <;> first | omega | rfl

/-- An OAMDMA word without its 256 source bytes is refused by their number (log 8). -/
theorem decodeCommand_badSource {c : Command} (h : c.word.toNat / 4096 = 2)
    (hs : c.src.length ≠ 256) : decodeCommand c = .error (.sourceLength c.src.length) := by
  rw [decodeCommand, tagOf_toNat, h]
  simp only
  rw [if_neg (by rw [sourceOk]; simpa [Config.oamSize] using hs)]

/-- The decoder yields well-formed instructions only. -/
theorem decodeCommand_wellFormed {c : Command} {i : Instr} (h : decodeCommand c = .ok i) :
    wellFormed i = true := by
  have hread : ∀ k, busReadInstr k = .ok i → wellFormed i = true := by
    intro k hk
    unfold busReadInstr at hk
    split at hk <;> first | (cases hk; rfl) | cases hk
  have hwrite : ∀ k d, busWriteInstr k d = .ok i → wellFormed i = true := by
    intro k d hk
    unfold busWriteInstr at hk
    split at hk <;> first | (cases hk; rfl) | cases hk
  unfold decodeCommand at h
  split at h
  · split at h
    · exact hread _ h
    · exact hwrite _ _ h
  · cases h; rfl
  · split at h
    · cases h; assumption
    · cases h
  · cases h; rfl
  · cases h; rfl
  · cases h; rfl
  · cases h; rfl
  · cases h

/-- No request decodes to an event action: "the host cannot issue one" (R131). -/
theorem decodeRequest_not_event {q : Request} {i : Instr} (h : decodeRequest q = .ok i) :
    i ≠ .vblankStart ∧ i ≠ .vblankEnd ∧ i ≠ .draw ∧ i ≠ .sprite0Hit := by
  have hread : ∀ k, busReadInstr k = .ok i →
      i ≠ .vblankStart ∧ i ≠ .vblankEnd ∧ i ≠ .draw ∧ i ≠ .sprite0Hit := by
    intro k hk
    unfold busReadInstr at hk
    split at hk <;> first | (cases hk; simp) | cases hk
  have hwrite : ∀ k d, busWriteInstr k d = .ok i →
      i ≠ .vblankStart ∧ i ≠ .vblankEnd ∧ i ≠ .draw ∧ i ≠ .sprite0Hit := by
    intro k d hk
    unfold busWriteInstr at hk
    split at hk <;> first | (cases hk; simp) | cases hk
  cases q with
  | busRead k => exact hread k h
  | busWrite k d => exact hwrite k d h
  | command c =>
    change decodeCommand c = .ok i at h
    unfold decodeCommand at h
    split at h
    · split at h
      · exact hread _ h
      · exact hwrite _ _ h
    · cases h; simp
    · split at h
      · cases h; simp
      · cases h
    · cases h; simp
    · cases h; simp
    · cases h; simp
    · cases h; simp
    · cases h

/-! ### One step -/

namespace Machine

/-- A step with a waiting request that decodes runs its instruction. -/
theorem step_decoded {s : State} {q : Request} {rest : List Request} {i : Instr}
    (hq : s.requests = q :: rest) (hi : decodeRequest q = .ok i) :
    step s = exec i { s with requests := rest } := by
  simp [step, hq, runRequest, hi]

/-- Everything a step can do. -/
theorem step_cases (s : State) :
    (s.requests = [] ∧ step s = .next s) ∨
      (∃ q rest i, s.requests = q :: rest ∧ decodeRequest q = .ok i ∧
        step s = exec i { s with requests := rest }) ∨
      (∃ q rest e, s.requests = q :: rest ∧ decodeRequest q = .error e ∧
        step s = rejectRequest e { s with requests := rest }) := by
  cases hq : s.requests with
  | nil => exact .inl ⟨rfl, by simp [step, hq]⟩
  | cons q rest =>
    cases hi : decodeRequest q with
    | ok i => exact .inr (.inl ⟨q, rest, i, rfl, hi, step_decoded hq hi⟩)
    | error e => exact .inr (.inr ⟨q, rest, e, rfl, hi, by simp [step, hq, runRequest, hi]⟩)

end Machine

end Sys2Proof
end

