-- ==== Sys2Proof/Laws/Halts.lean ====
section
/-! SUPPORT. Which halts an action and ADVANCE can end in; which cache entries, NMI flags and faithful caches
they keep. -/

namespace Sys2Proof.Machine

open Sys2Proof

/-! ### Causes (R221 to R227) -/

/-- Every halt a state may be in has a cause of the given kind. -/
abbrev CausesIn (p : HaltCause → Prop) (s : State) : Prop := ∀ c r, s.run = .halted c r → p c

theorem causes_of_running {p : HaltCause → Prop} {s : State} (h : s.Running) : CausesIn p s := by
  intro c r e; rw [State.Running] at h; rw [h] at e; cases e

theorem causes_schedule {a : Action} {c : Nat} {s : State} (h : s.Running) :
    CausesIn (· = .schedulerInvariant) (schedule a c s) := by
  intro c' r e
  rcases schedule_cases a c s with ⟨-, e'⟩ | ⟨-, e'⟩ <;> rw [e'] at e
  · exact causes_of_running (p := (· = .schedulerInvariant)) h c' r e
  · simp only [halt_run, Run.halted.injEq] at e; exact e.1.symm

theorem causes_andThen {p : HaltCause → Prop} {s : State} {f : State → State} (h : CausesIn p s)
    (hf : s.Running → CausesIn p (f s)) : CausesIn p (s.andThen f) := by
  rcases andThen_cases s f with ⟨hr, e⟩ | ⟨-, e⟩ <;> rw [e]
  · exact hf hr
  · exact h

/-- F2 may end any action, U1 only DRAW, U2 only VBLANK_END and DRAW (R220). -/
theorem causes_fire (a : Action) {s : State} (h : s.Running) :
    CausesIn (fun c => c = .schedulerInvariant ∨ (c = .sprite8x16 ∧ a = .draw) ∨
      (c = .unsupportedMirroring ∧ (a = .vblankEnd ∨ a = .draw))) (fire a s) := by
  cases a with
  | vblankStart => exact fun c r e => .inl (causes_schedule (s := State.withRegs _ _) h c r e)
  | sprite0Hit => exact fun c r e => .inl (causes_schedule (s := State.withRegs _ _) h c r e)
  | vblankEnd =>
    rw [fire, actVblankEnd]
    refine causes_andThen (fun c r e => .inr (.inr ⟨rebuildGrid_halt h e, .inl rfl⟩))
      fun hr c r e => .inl (causes_schedule ?_ c r e)
    rw [State.Running, withRegs_run, decodeSprites_run]; exact hr
  | draw =>
    rw [fire, actDraw]
    refine causes_andThen
      (fun c r e => .inr (.inr ⟨refreshGrid_halt (s := State.withRegs _ _) h e, .inr rfl⟩))
      fun hr => ?_
    refine causes_andThen (fun c r e => .inr (.inl ⟨predict_halt (s := present _) hr e, rfl⟩))
      fun hr c r e => .inl ?_
    revert e
    cases (predict _).1 <;> exact causes_schedule hr c r

/-- ADVANCE halts with F2, U1 or U2 only. -/
theorem causes_advanced (n : Nat) {s : State} (h : s.Running) :
    CausesIn (fun c => c = .schedulerInvariant ∨ c = .sprite8x16 ∨ c = .unsupportedMirroring)
      (advanced n s) := by
  refine advanceLoop_induct (CausesIn _) (fun u hu _ c r e => ?_)
    (fun u rem hu _ _ => causes_of_running (s := u.withRegs _) hu) _ _ (causes_of_running h)
  have := causes_fire u.regs.nextAction (s := arrive u) hu c r e
  tauto

/-! ### What Tile's fills, the actions and ADVANCE keep of the cache -/

/-- A property of states that depends on the cache, the mapper and nothing else. -/
abbrev CacheProperty (P : State → Prop) : Prop :=
  ∀ s t : State, t.tileCache = s.tileCache → t.mapper = s.mapper → P s → P t

theorem fire_keeps_cache {P : State → Prop} (hP : CacheProperty P)
    (hfill : ∀ half id s, P s → P (tileFill half id s)) (a : Action) {s : State} (h : P s) :
    P (fire a s) := by
  have hsch : ∀ a c s, P s → P (schedule a c s) := fun a c s h => by
    rw [schedule]; split
    · exact hP s _ rfl rfl h
    · exact hP s _ rfl rfl h
  have hthen : ∀ (s : State) f, P s → (∀ s, P s → P (f s)) → P (s.andThen f) := fun s f h hf => by
    rcases andThen_cases s f with ⟨-, e⟩ | ⟨-, e⟩ <;> rw [e]
    · exact hf s h
    · exact h
  have hgrid : ∀ s, P s → P (rebuildGrid s) := fun s h => by
    rw [rebuildGrid]; split
    · exact hP s _ rfl rfl h
    · exact hP s _ rfl rfl h
  have hregs : ∀ (s : State) f, P s → P (s.withRegs f) := fun s f h => hP s _ rfl rfl h
  cases a with
  | vblankStart => exact hsch _ _ _ (hregs _ _ h)
  | sprite0Hit => exact hsch _ _ _ (hregs _ _ h)
  | vblankEnd =>
    rw [fire, actVblankEnd]
    refine hthen _ _ (hgrid _ h) fun s h => hsch _ _ _ (hregs _ _ ?_)
    exact decodeSprites_induct P hfill (fun s v h => hP s _ rfl rfl h) h
  | draw =>
    rw [fire, actDraw]
    refine hthen _ _ ?_ fun s h => ?_
    · rw [refreshGrid]; split
      · exact hregs _ _ h
      · exact hgrid _ (hregs _ _ h)
    · refine hthen _ _ (predict_induct P hfill (fun s h => hP s _ rfl rfl h) (hP s _ rfl rfl h))
        fun s h => ?_
      cases (predict _).1 <;> exact hsch _ _ _ h

theorem advanced_keeps_cache {P : State → Prop} (hP : CacheProperty P)
    (hfill : ∀ half id s, P s → P (tileFill half id s)) (n : Nat) {s : State} (h : P s) :
    P (advanced n s) :=
  advanceLoop_induct P
    (fun u _ h => fire_keeps_cache hP hfill _ (hP u (arrive u) rfl rfl h))
    (fun u _ _ _ h => hP u (u.withRegs _) rfl rfl h) _ _ h

theorem cacheProperty_entry (k : Fin 512) (px : Tile) :
    CacheProperty fun s => s.tileCache[k] = some px := by
  intro s t hc _ h; rw [hc]; exact h

theorem cacheProperty_faithful : CacheProperty State.CacheFaithful := by
  intro s t hc hm h half id px hpx
  rw [hc] at hpx
  rw [hm]
  exact h half id px hpx

/-- With pattern tables in ROM a write leaves every tile's decode as it was (R185). -/
theorem fetchTile_write {m : Mapper} (h : m.PatternRom) (a : VAddr) (v : Byte) (half : BitVec 1)
    (id : Byte) : fetchTile (ppuWrite m a v) half id = fetchTile m half id := by
  have hb : ∀ p : Nat, p < 2 → ∀ r : Fin 8,
      (tileAddr half id + BitVec.ofNat 14 (8 * p + r.val)).toNat < 0x2000 := by
    intro p hp r
    have := half.isLt
    have := id.isLt
    rw [tileAddr, BitVec.toNat_add, BitVec.toNat_ofNat, BitVec.toNat_ofNat]
    omega
  have hp : ∀ p : Nat, p < 2 → planeBytes (ppuWrite m a v) half id p = planeBytes m half id p := by
    intro p hp
    simp only [planeBytes]
    congr 1
    funext r
    exact ppuRead_pattern_write h a v (hb p hp r)
  rw [fetchTile, fetchTile, hp 0 (by omega), hp 1 (by omega)]

/-! ### The NMI flag (R229, R230) -/

/-- Since a state `s`, the flag has been kept, or raised under `nmiEnable`. -/
abbrev NmiSince (s t : State) : Prop :=
  t.regs.ctrl.nmiEnable = s.regs.ctrl.nmiEnable ∧
    (t.regs.nmiPending = s.regs.nmiPending ∨
      (s.regs.ctrl.nmiEnable = true ∧ t.regs.nmiPending = true))

theorem schedule_nmi (a : Action) (c : Nat) (s : State) :
    (schedule a c s).regs.nmiPending = s.regs.nmiPending := by
  rw [schedule]; split <;> rfl

/-- Only VBLANK_START writes the flag (R131, R133). -/
theorem fire_nmi (a : Action) (s : State) :
    (fire a s).regs.nmiPending =
      (s.regs.nmiPending || (decide (a = .vblankStart) && s.regs.ctrl.nmiEnable)) := by
  cases a with
  | vblankStart => exact (schedule_nmi _ _ _).trans (by simp)
  | vblankEnd =>
    rw [fire, actVblankEnd]
    refine (andThen_keeps (·.regs.nmiPending) ?_).trans
      ((congrArg Regs.nmiPending (rebuildGrid_regs s)).trans (by simp))
    rw [schedule_nmi, withRegs_regs, decodeSprites_regs]
  | draw =>
    rw [fire, actDraw]
    refine (andThen_keeps (·.regs.nmiPending) ?_).trans (by rw [refreshGrid_regs]; simp)
    refine (andThen_keeps (·.regs.nmiPending) ?_).trans (by rw [predict_regs]; rfl)
    cases (predict _).1 <;> exact schedule_nmi _ _ _
  | sprite0Hit => exact (schedule_nmi _ _ _).trans (by simp)

theorem nmiSince_fire {s u : State} (a : Action) (h : NmiSince s u) : NmiSince s (fire a u) := by
  refine ⟨(congrArg Ctrl.nmiEnable (frame_fire a u).ctrl).trans h.1, ?_⟩
  rw [fire_nmi, h.1]
  rcases h.2 with e | ⟨e, e'⟩
  · rw [e]
    cases s.regs.nmiPending <;> cases s.regs.ctrl.nmiEnable <;> cases (decide (a = .vblankStart)) <;>
      simp
  · simp [e, e']

theorem nmiSince_advanced (n : Nat) (s : State) : NmiSince s (advanced n s) :=
  advanceLoop_induct (NmiSince s) (fun u _ h => nmiSince_fire (u := arrive u) _ h)
    (fun _ _ _ _ h => h) _ _ ⟨rfl, .inl rfl⟩

end Sys2Proof.Machine
end

