-- ==== Sys2Proof/Laws/PerInstr.lean ====
section
/-! SUPPORT. Statements about every instruction as syntax, one lemma a constructor. -/

namespace Sys2Proof.Laws.RoundTrip

open Sys2Proof

/-- Decoding the encoding of a well-formed instruction gives it back (R101 to R103). -/
def Statement (i : Instr) : Prop := wellFormed i = true → decode (encode i) = .ok i

theorem rd0 : Statement .rd0 := fun _ => decode_encodeRead 0#3
theorem rd1 : Statement .rd1 := fun _ => decode_encodeRead 1#3
theorem rd2 : Statement .rd2 := fun _ => decode_encodeRead 2#3
theorem rd3 : Statement .rd3 := fun _ => decode_encodeRead 3#3
theorem rd4 : Statement .rd4 := fun _ => decode_encodeRead 4#3
theorem rd5 : Statement .rd5 := fun _ => decode_encodeRead 5#3
theorem rd6 : Statement .rd6 := fun _ => decode_encodeRead 6#3
theorem rd7 : Statement .rd7 := fun _ => decode_encodeRead 7#3
theorem wr0 (d : Byte) : Statement (.wr0 d) := fun _ => decode_encodeWrite 0#3 d
theorem wr1 (d : Byte) : Statement (.wr1 d) := fun _ => decode_encodeWrite 1#3 d
theorem wr2 (d : Byte) : Statement (.wr2 d) := fun _ => decode_encodeWrite 2#3 d
theorem wr3 (d : Byte) : Statement (.wr3 d) := fun _ => decode_encodeWrite 3#3 d
theorem wr4 (d : Byte) : Statement (.wr4 d) := fun _ => decode_encodeWrite 4#3 d
theorem wr5 (d : Byte) : Statement (.wr5 d) := fun _ => decode_encodeWrite 5#3 d
theorem wr6 (d : Byte) : Statement (.wr6 d) := fun _ => decode_encodeWrite 6#3 d
theorem wr7 (d : Byte) : Statement (.wr7 d) := fun _ => decode_encodeWrite 7#3 d
theorem advance (n : Nat) : Statement (.advance n) := fun _ => by
  simp [decode, encode, decodeCommand]
theorem oamdma (page : Byte) (src : List Byte) : Statement (.oamdma page src) := fun h => by
  have h : sourceOk src = true := h
  simp [decode, encode, decodeCommand, h]
theorem pollnmi : Statement .pollnmi := fun _ => by
  simp [decode, encode, decodeCommand, plainCommand]
theorem reset : Statement .reset := fun _ => by
  simp [decode, encode, decodeCommand, plainCommand]
theorem chrremap : Statement .chrremap := fun _ => by
  simp [decode, encode, decodeCommand, plainCommand]
theorem tileq (half : BitVec 1) (id : Byte) : Statement (.tileq half id) := fun _ => by
  simp [decode, encode, decodeCommand, plainCommand]
theorem vblankStart : Statement .vblankStart := fun _ => rfl
theorem vblankEnd : Statement .vblankEnd := fun _ => rfl
theorem draw : Statement .draw := fun _ => rfl
theorem sprite0Hit : Statement .sprite0Hit := fun _ => rfl

end Sys2Proof.Laws.RoundTrip
end

