-- ==== Sys2Proof/Laws/Registers.lean ====
section
/-! SUPPORT. Control, Mask and Status bytes, the two-write protocols, the pointer step, the OAM-DMA copy. -/

namespace Sys2Proof.Machine

open Sys2Proof

/-! ### Bytes (R104, R106) -/

/-- The Status byte as a number (R106). -/
theorem statusByte_toNat (l : Byte) (f : Stat) :
    (statusByte l f).toNat =
      l.toNat % 32 + 32 * f.overflow.toNat + 64 * f.spr0Hit.toNat + 128 * f.vblank.toNat := by
  obtain ⟨a, b, c⟩ := f
  revert a b c l; decide

/-- The fields of a Control byte as numbers (R104). -/
theorem ctrlBits_toNat : ∀ d : Byte,
    (d.extractLsb' 0 2).toNat = d.toNat % 4 ∧ (d.getLsbD 2).toNat = d.toNat / 4 % 2 ∧
      (d.extractLsb' 3 1).toNat = d.toNat / 8 % 2 ∧ (d.extractLsb' 4 1).toNat = d.toNat / 16 % 2 ∧
      (d.getLsbD 5).toNat = d.toNat / 32 % 2 ∧ (d.getLsbD 7).toNat = d.toNat / 128 % 2 := by
  decide

theorem masterSlaveBit_eq (d : Byte) : masterSlaveBit d = decide (d.toNat / 64 % 2 = 1) := by
  simp [masterSlaveBit, BitVec.getLsbD, Nat.testBit_eq_decide_div_mod_eq]

/-! ### The pointer (R110, R115, R158) -/

theorem addrHigh_toNat (v : VAddr) (d : Byte) :
    (addrHigh v d).toNat = d.toNat % 64 * 256 + v.toNat % 256 := by
  rw [addrHigh, BitVec.toNat_append, ← Nat.shiftLeft_add_eq_or_of_lt (BitVec.isLt _)]
  simp [Nat.shiftLeft_eq]

theorem addrLow_toNat (v : VAddr) (d : Byte) :
    (addrLow v d).toNat = v.toNat / 256 * 256 + d.toNat := by
  have := v.isLt
  rw [addrLow, BitVec.toNat_append, ← Nat.shiftLeft_add_eq_or_of_lt (BitVec.isLt _)]
  simp [Nat.shiftLeft_eq, Nat.shiftRight_eq_div_pow]
  omega

/-- The pointer advances modulo 0x4000 (R115). -/
theorem add_vramInc_toNat (v : VAddr) (c : Ctrl) :
    (v + vramInc c).toNat = (v.toNat + if c.incr32 then 32 else 1) % 0x4000 := by
  rw [vramInc, BitVec.toNat_add]
  cases c.incr32 <;> rfl

theorem inPalette_iff (a : VAddr) : inPalette a = true ↔ 0x3F00 ≤ a.toNat := by
  rw [inPalette, decide_eq_true_iff]

theorem refillAddr_low {a : VAddr} (h : a.toNat < 0x3F00) : refillAddr a = a := by
  rw [refillAddr, if_neg (by rw [inPalette_iff]; omega)]

theorem refillAddr_palette {a : VAddr} (h : 0x3F00 ≤ a.toNat) :
    refillAddr a = BitVec.ofNat 14 (a.toNat - 0x1000) := by
  have := a.isLt
  rw [refillAddr, if_pos ((inPalette_iff a).mpr h)]
  apply BitVec.eq_of_toNat_eq
  simp only [BitVec.toNat_sub, BitVec.toNat_ofNat]
  omega

/-! ### The OAM-DMA copy (R210) -/

theorem dmaCopy_fits (src : List Byte) (p : Byte) {oam : Memory} (h : Memory.Fits Config.oamSize oam) :
    Memory.Fits Config.oamSize (dmaCopy src p oam) := by
  induction src generalizing p oam with
  | nil => exact h
  | cons v rest ih => exact ih _ (write_fits h p.isLt v)

theorem dmaCopy_wf (src : List Byte) (p : Byte) {oam : Memory} (h : Memory.wf oam = true) :
    Memory.wf (dmaCopy src p oam) = true := by
  induction src generalizing p oam with
  | nil => exact h
  | cons v rest ih => exact ih _ (write_wf h _ v)

/-- A cell the copy does not reach. -/
theorem read_dmaCopy_other {src : List Byte} {p : Byte} {oam : Memory} {a : Nat}
    (h : Memory.wf oam = true) (ha : ∀ i, i < src.length → a ≠ (p.toNat + i) % 256) :
    Memory.read (dmaCopy src p oam) a = Memory.read oam a := by
  induction src generalizing p oam with
  | nil => rfl
  | cons v rest ih =>
    have hp := p.isLt
    rw [dmaCopy, ih (write_wf h _ v)]
    · refine read_write_other h ?_ v
      have := ha 0 (by simp)
      omega
    · intro i hi
      have := ha (i + 1) (by simpa using hi)
      rw [BitVec.toNat_add]
      change _ ≠ ((p.toNat + 1) % 256 + i) % 256
      omega

/-- The cell of byte `i`: no later byte of at most 256 reaches it again. -/
theorem read_dmaCopy {src : List Byte} {p : Byte} {oam : Memory} {i : Nat}
    (h : Memory.wf oam = true) (hl : src.length ≤ 256) (hi : i < src.length) :
    Memory.read (dmaCopy src p oam) ((p.toNat + i) % 256) = src[i] := by
  induction src generalizing p oam i with
  | nil => simp at hi
  | cons v rest ih =>
    have hp := p.isLt
    simp only [List.length_cons] at hl hi
    rw [dmaCopy]
    cases i with
    | zero =>
      have e : (p.toNat + 0) % 256 = p.toNat := by omega
      rw [read_dmaCopy_other (write_wf h _ v), e, read_write_same h]
      · rfl
      · intro j hj
        rw [BitVec.toNat_add]
        change _ ≠ ((p.toNat + 1) % 256 + j) % 256
        omega
    | succ i =>
      have e : (p.toNat + (i + 1)) % 256 = ((p + 1#8).toNat + i) % 256 := by
        rw [BitVec.toNat_add]
        change _ = ((p.toNat + 1) % 256 + i) % 256
        omega
      rw [e, ih (write_wf h _ v) (by omega) (by omega)]
      rfl

end Sys2Proof.Machine
end

