-- ==== Sys2Proof/Tests/Slice0.lean ====
section
/-! SUPPORT. Tests. Expected values are those of spec/95_test_vectors.md (V1 to V91) or hand calculation from
the rule named; then one witness for every obligation that has hypotheses. -/

namespace Sys2Proof.Tests

open Sys2Proof Sys2Proof.Machine

/- One kernel evaluation at a time: run all at once, each takes a thread and its stack. -/
set_option Elab.async false

/-! ### Well-formedness -/

theorem test_wf_refuses_short_dma : wellFormed (.oamdma 2#8 (List.replicate 255 0#8)) = false := by
  decide +kernel
theorem test_wf_refuses_long_dma : wellFormed (.oamdma 2#8 (List.replicate 257 0#8)) = false := by
  decide +kernel
theorem test_wf_accepts_dma : wellFormed (.oamdma 2#8 (List.replicate 256 0#8)) = true := by
  decide +kernel

/-! ### Decoding: one word a constructor, written out as tag || rw || reg || data (R101, R102) -/

def word (w : CmdWord) : Except DecodeError Instr := decode (.command ⟨w, 0, []⟩)

theorem test_decode_rd0 : word 0b0000_0_000_00000000#16 = .ok .rd0 := rfl
theorem test_decode_rd1 : word 0b0000_0_001_00000000#16 = .ok .rd1 := rfl
theorem test_decode_rd2 : word 0b0000_0_010_00000000#16 = .ok .rd2 := rfl
theorem test_decode_rd3 : word 0b0000_0_011_00000000#16 = .ok .rd3 := rfl
theorem test_decode_rd4 : word 0b0000_0_100_00000000#16 = .ok .rd4 := rfl
theorem test_decode_rd5 : word 0b0000_0_101_00000000#16 = .ok .rd5 := rfl
theorem test_decode_rd6 : word 0b0000_0_110_00000000#16 = .ok .rd6 := rfl
/-- The data bits of a read are ignored (R117 c). -/
theorem test_decode_rd7 : word 0b0000_0_111_11111111#16 = .ok .rd7 := rfl
theorem test_decode_wr0 : word 0b0000_1_000_10010000#16 = .ok (.wr0 0x90#8) := rfl
theorem test_decode_wr1 : word 0b0000_1_001_00011110#16 = .ok (.wr1 0x1E#8) := rfl
theorem test_decode_wr2 : word 0b0000_1_010_11111111#16 = .ok (.wr2 0xFF#8) := rfl
theorem test_decode_wr3 : word 0b0000_1_011_01000000#16 = .ok (.wr3 0x40#8) := rfl
theorem test_decode_wr4 : word 0b0000_1_100_00011101#16 = .ok (.wr4 0x1D#8) := rfl
theorem test_decode_wr5 : word 0b0000_1_101_00010001#16 = .ok (.wr5 0x11#8) := rfl
theorem test_decode_wr6 : word 0b0000_1_110_00100000#16 = .ok (.wr6 0x20#8) := rfl
theorem test_decode_wr7 : word 0b0000_1_111_10000000#16 = .ok (.wr7 0x80#8) := rfl
theorem test_decode_advance :
    decode (.command ⟨0b0001_000000000000#16, 89342, []⟩) = .ok (.advance 89342) := rfl
theorem test_decode_oamdma :
    (match decode (.command ⟨0b0010_0000_00000010#16, 0, List.replicate 256 7#8⟩) with
      | .ok i => decide (i = .oamdma 2#8 (List.replicate 256 7#8))
      | .error _ => false) = true := by decide +kernel
theorem test_decode_oamdma_short : word 0b0010_0000_00000010#16 = .error (.sourceLength 0) := rfl
theorem test_decode_pollnmi : word 0b0011_000000000000#16 = .ok .pollnmi := rfl
theorem test_decode_reset : word 0b0100_000000000000#16 = .ok .reset := rfl
theorem test_decode_chrremap : word 0b0101_000000000000#16 = .ok .chrremap := rfl
/-- V40: TILEQ 1, 0x24 is 0x6124. -/
theorem test_decode_tileq : word 0b0110_0001_00100100#16 = .ok (.tileq 1#1 0x24#8) := rfl
theorem test_decode_reserved : word 0b0111_000000000000#16 = .error (.reservedTag 7#4) := rfl
theorem test_decode_vblankStart : decode (.event 0b00#2) = .ok .vblankStart := rfl
theorem test_decode_vblankEnd : decode (.event 0b01#2) = .ok .vblankEnd := rfl
theorem test_decode_draw : decode (.event 0b10#2) = .ok .draw := rfl
theorem test_decode_sprite0Hit : decode (.event 0b11#2) = .ok .sprite0Hit := rfl

/-! ### One step -/

/-- One command word, with its cycles, from a state. -/
def run (w : CmdWord) (n : Nat) (s : State) : Result := step { s with requests := [.command ⟨w, n, []⟩] }

/-- A property of the next state. -/
def gives (r : Result) (p : State → Bool) : Bool :=
  match r with
  | .next t => p t
  | .fault _ => false
  | .refused _ => false

/-- The reset state with other registers. -/
abbrev at_ (f : Regs → Regs) : State := State.reset.withRegs f

/-- The reset state with a reference mapper of the given bytes. -/
abbrev on (chr nt : Memory) (s : State) : State :=
  { s with mapper := .refNROM { chr := chr, chrWritable := false, nt := nt, mirroring := .vertical } }

/-- `count` equal bytes from an address. -/
def fill (a count : Nat) (v : Byte) : Memory := (List.range count).map fun i => (a + i, v)

def returned (v : Byte) (s : State) : Bool := decide (s.reply = some (.byte v))

/-- V20. -/
theorem test_rd0 : gives (run 0x0000#16 0 (at_ fun r => { r with latch := 0x1E#8 }))
    (returned 0x1E#8) = true := by decide +kernel
theorem test_rd1 : gives (run 0x0100#16 0 (at_ fun r => { r with latch := 0x1E#8 }))
    (returned 0x1E#8) = true := by decide +kernel
theorem test_rd3 : gives (run 0x0300#16 0 (at_ fun r => { r with latch := 0x07#8, oamAddr := 0x41#8 }))
    (returned 0x07#8) = true := by decide +kernel
theorem test_rd5 : gives (run 0x0500#16 0 (at_ fun r => { r with latch := 0x1E#8 }))
    (returned 0x1E#8) = true := by decide +kernel
theorem test_rd6 : gives (run 0x0600#16 0 (at_ fun r => { r with latch := 0x1E#8 }))
    (returned 0x1E#8) = true := by decide +kernel

/-- V21 and V2: the value, then the clears. -/
theorem test_rd2 : gives
    (run 0x0200#16 0 (at_ fun r => { r with
      latch := 0xFF#8, stat := ⟨true, false, false⟩, nextScroll := true, nextAddr := true }))
    (fun t => returned 0x9F#8 t && !t.regs.stat.vblank && !t.regs.nextScroll && !t.regs.nextAddr) =
      true := by decide +kernel

/-- P2: hit and vblank together. -/
theorem test_rd2_hit : gives
    (run 0x0200#16 0 (at_ fun r => { r with latch := 0x18#8, stat := ⟨true, true, false⟩ }))
    (fun t => returned 0xD8#8 t && t.regs.stat.spr0Hit) = true := by decide +kernel

/-- V30. -/
theorem test_rd4 : gives
    (run 0x0400#16 0 (at_ fun r => { r with oam := [(2, 0xE3#8)], oamAddr := 2#8 }))
    (fun t => returned 0xE3#8 t && t.regs.oamAddr == 2#8) = true := by decide +kernel

/-- V7. -/
theorem test_rd7 : gives
    (run 0x0700#16 0 (on [] [(0x063, 5#8), (0x064, 6#8)] (at_ fun r => { r with vramAddr := 0x2063#14 })))
    (fun t => returned 0#8 t && t.regs.readBuf == 5#8 && t.regs.vramAddr == 0x2064#14) = true := by
  decide +kernel

/-- V24. -/
theorem test_rd7_palette : gives
    (run 0x0700#16 0 (on [] [(0x700, 0x77#8)]
      (at_ fun r => { r with pal := [(0, 0x2C#8)], vramAddr := 0x3F00#14 })))
    (fun t => returned 0x2C#8 t && t.regs.readBuf == 0x77#8 && t.regs.vramAddr == 0x3F01#14) =
      true := by decide +kernel

/-- V31. -/
theorem test_wr0 : gives (run 0x083F#16 0 State.reset)
    (fun t => decide (t.regs.ctrl = ⟨3#2, true, 1#1, 1#1, true, false, false⟩)) = true := by
  decide +kernel

/-- V82: F1, with the old fields and the new latch. -/
theorem test_wr0_halts : gives
    (run 0x0840#16 0 (at_ fun r => { r with ctrl := { r.ctrl with bgTable := 1#1, nmiEnable := true } }))
    (fun t => decide (t.run = .halted .masterSlaveSet t.regs ∧ t.regs.latch = 0x40#8 ∧
      t.regs.ctrl.bgTable = 1#1 ∧ t.regs.ctrl.nmiEnable = true)) = true := by decide +kernel

/-- V33. -/
theorem test_wr1 : gives (run 0x09E1#16 0 State.reset)
    (fun t => decide (t.regs.mask = ⟨true, false, false, false, false, true, true, true⟩)) = true := by
  decide +kernel

/-- V21. -/
theorem test_wr2 : gives (run 0x0AFF#16 0 State.reset)
    (fun t => decide (t.regs = { State.reset.regs with latch := 0xFF#8 })) = true := by decide +kernel

/-- V3's first command. -/
theorem test_wr3 : gives (run 0x0BFF#16 0 State.reset)
    (fun t => t.regs.oamAddr == 0xFF#8 && t.regs.latch == 0xFF#8) = true := by decide +kernel

/-- V3: the pointer wraps at 255. -/
theorem test_wr4 : gives (run 0x0C05#16 0 (at_ fun r => { r with oamAddr := 0xFF#8 }))
    (fun t => oamByte t 255 == 5#8 && t.regs.oamAddr == 0#8) = true := by decide +kernel

/-- V4: the second write goes to scrollY. -/
theorem test_wr5 : gives
    (run 0x0D34#16 0 (at_ fun r => { r with scrollX := 0x12#8, nextScroll := true }))
    (fun t => t.regs.scrollX == 0x12#8 && t.regs.scrollY == 0x34#8 && !t.regs.nextScroll) = true := by
  decide +kernel

/-- V22: the high byte is masked to six bits. -/
theorem test_wr6_first : gives (run 0x0EFF#16 0 State.reset)
    (fun t => t.regs.vramAddr == 0x3F00#14 && t.regs.nextAddr) = true := by decide +kernel

/-- V28: the second write replaces the low byte. -/
theorem test_wr6_second : gives
    (run 0x0E3F#16 0 (at_ fun r => { r with vramAddr := 0x2100#14, nextAddr := true }))
    (fun t => t.regs.vramAddr == 0x213F#14 && !t.regs.nextAddr) = true := by decide +kernel

/-- V23: step 32, and the mapper holds the byte. -/
theorem test_wr7 : gives
    (run 0x0F02#16 0 (at_ fun r =>
      { r with vramAddr := 0x2020#14, ctrl := { r.ctrl with incr32 := true } }))
    (fun t => ppuRead t.mapper 0x2020#14 == 2#8 && t.regs.vramAddr == 0x2040#14) = true := by
  decide +kernel

/-- V24: the palette's alias, and cell 0x10 unused. -/
theorem test_wr7_palette : gives (run 0x0F2C#16 0 (at_ fun r => { r with vramAddr := 0x3F10#14 }))
    (fun t => decide (t.regs.pal = [(0, 0x2C#8)]) && t.regs.vramAddr == 0x3F11#14) = true := by
  decide +kernel

/-- V1. -/
theorem test_advance_fires : gives
    (run 0x1000#16 82182 (at_ fun r => { r with ctrl := { r.ctrl with nmiEnable := true } }))
    (fun t => t.regs.cycle == 82182 && t.regs.stat.vblank && t.regs.nmiPending &&
      decide (t.regs.nextAction = .vblankEnd) && t.regs.nextActionCycle == 89002) = true := by
  decide +kernel

/-- V11: one cycle short. -/
theorem test_advance_short : gives (run 0x1000#16 82181 State.reset)
    (fun t => t.regs.cycle == 82181 && !t.regs.stat.vblank) = true := by decide +kernel

/-- V80: `src[i] = (3 i + 1) mod 256` at `oamAddr = 4`. -/
theorem test_oamdma : gives
    (step { (at_ fun r => { r with oamAddr := 4#8 }) with
      requests := [.command ⟨0x2002#16, 0, (List.range 256).map fun i => BitVec.ofNat 8 (3 * i + 1)⟩] })
    (fun t => oamByte t 4 == 0x01#8 && oamByte t 7 == 0x0A#8 && oamByte t 255 == 0xF2#8 &&
      oamByte t 0 == 0xF5#8 && oamByte t 3 == 0xFE#8 && t.regs.oamAddr == 4#8) = true := by
  decide +kernel

/-- V81. -/
theorem test_pollnmi : gives (run 0x3000#16 0 (at_ fun r => { r with nmiPending := true }))
    (fun t => decide (t.reply = some (.bit true)) && !t.regs.nmiPending) = true := by decide +kernel

/-- V82: RESET leaves Halted. -/
theorem test_reset : gives
    (run 0x4000#16 0 ((at_ fun r => { r with latch := 0x40#8 }).halt .masterSlaveSet))
    (fun t => decide (t.regs = State.reset.regs) && decide (t.run = .running)) = true := by decide +kernel

/-- V43. -/
theorem test_chrremap : gives (run 0x5000#16 0 (at_ fun r => { r with cycle := 100, latch := 0x18#8 }))
    (fun t => decide (t.run = .halted .bankedChrInvalidation t.regs) && t.regs.cycle == 100) = true := by
  decide +kernel

/-- V40, rows 0 and 3. -/
theorem test_tileq : gives
    (run 0x6124#16 0 (on ([(0x1240, 0x81#8), (0x1243, 0x18#8), (0x1248, 0xC0#8), (0x124B, 0x18#8)]) []
      State.reset))
    (fun t => match t.reply with
      | some (.pixels px) =>
        decide (px.toList.take 8 = [3#2, 2#2, 0#2, 0#2, 0#2, 0#2, 0#2, 1#2] ∧
          (px.toList.drop 24).take 8 = [0#2, 0#2, 0#2, 3#2, 3#2, 0#2, 0#2, 0#2])
      | _ => false) = true := by decide +kernel

/-- V91: a Halted core ignores a write. -/
theorem test_halted_ignores : gives
    (run 0x0800#16 0 ((at_ fun r => { r with latch := 0x7B#8 }).halt .sprite8x16))
    (fun t => t.regs.latch == 0x7B#8 && decide (t.reply = none)) = true := by decide +kernel

/-! ### The event actions, each as ADVANCE 1 or 0 fires it -/

/-- The reset state with an action outstanding at the next cycle. -/
abbrev due (a : Action) (c : Nat) : State :=
  at_ fun r => { r with cycle := c - 1, nextAction := a, nextActionCycle := c }

/-- V90: F2 under parameters that break R8. -/
theorem test_vblankStart_F2 : gives
    (run 0x1000#16 82182
      { State.reset with params := { Params.default with vblankEndCycle := 82182 } })
    (fun t => decide (t.run = .halted .schedulerInvariant t.regs) && t.regs.cycle == 82182 &&
      t.regs.stat.vblank) = true := by decide +kernel

/-- V8: cell (3, 3) is tile 5 with palette 2; V13: vblank is cleared. -/
theorem test_vblankEnd : gives
    (run 0x1000#16 1 (on [] [(0x063, 5#8), (0x3C0, 0x80#8)]
      ((due .vblankEnd 89002).withRegs fun r => { r with stat := ⟨true, true, false⟩ })))
    (fun t => decide (gridCell t.grid 3 3 = ⟨5#8, 2#2⟩ ∧ gridCell t.grid 1 3 = ⟨0#8, 0#2⟩) &&
      t.gridValid && decide (t.regs.stat = ⟨false, false, false⟩) &&
      decide (t.regs.nextAction = .draw) && t.regs.nextActionCycle == 89342) = true := by
  decide +kernel

/-- V53, slot 0: both flips. -/
theorem test_vblankEnd_sprite : gives
    (run 0x1000#16 1 (on [(0x10, 0x80#8), (0x17, 0x01#8), (0x18, 0x80#8)] []
      ((due .vblankEnd 89002).withRegs fun r =>
        { r with oam := [(0, 0x1D#8), (1, 0x01#8), (2, 0xC0#8), (3, 0x7B#8)] })))
    (fun t =>
      let p := t.sprites[0]
      decide (p.yTop = 30#9 ∧ p.x = 123#8 ∧ p.tileId = 1#8 ∧ p.flipH = true ∧ p.flipV = true) &&
        p.rows[0].toList == [1#2, 0#2, 0#2, 0#2, 0#2, 0#2, 0#2, 0#2] &&
        p.rows[7].toList == [0#2, 0#2, 0#2, 0#2, 0#2, 0#2, 0#2, 3#2]) = true := by
  decide +kernel

/-- V54: U2 at VBLANK_END, before it clears the flag. -/
theorem test_vblankEnd_U2 : gives
    (run 0x1000#16 1 { (due .vblankEnd 89002).withRegs (fun r => { r with stat := ⟨true, false, false⟩ })
      with mapper := .refNROM { chr := [], chrWritable := false, nt := [], mirroring := .other } })
    (fun t => decide (t.run = .halted .unsupportedMirroring t.regs) && t.regs.stat.vblank &&
      !t.gridValid && t.regs.cycle == 89002) = true := by decide +kernel

/-- Setup S of V5 at the end of a frame, with OAM slot 0. -/
abbrev setupS (y attr x : Byte) (size : Bool) : State :=
  on (fill 0x10 8 0xFF#8 ++ fill 0x20 8 0xFF#8) (fill 0 0x3C0 2#8)
    ((due .draw 89342).withRegs fun r =>
      { r with
        oam := Memory.write (Memory.write (Memory.write (Memory.write [] 0 y) 1 1#8) 2 attr) 3 x
        ctrl := { r.ctrl with sprSize := size }
        mask := { r.mask with showBg := true, showSpr := true } })

/-- V60: 30 * 341 + 123 + 1. -/
theorem test_draw_hit : gives (run 0x1000#16 1 (setupS 0x1D#8 0#8 0x7B#8 false))
    (fun t => decide (t.regs.nextAction = .sprite0Hit) && t.regs.nextActionCycle == 10354 &&
      t.regs.cycle == 0 && t.regs.frame == 1 && t.presented.length == 1) = true := by decide +kernel

/-- V68: U1, after the frame was presented. -/
theorem test_draw_U1 : gives (run 0x1000#16 1 (setupS 0x1D#8 0#8 0x7B#8 true))
    (fun t => decide (t.run = .halted .sprite8x16 t.regs) && t.regs.frame == 1 &&
      t.presented.length == 1 && decide (t.regs.nextAction = .draw)) = true := by decide +kernel

/-- The word of the DRAW row runs DRAW as the first step after reset (R103: code 2). -/
theorem test_withFetchWord_draw : gives (step (State.reset.withFetchWord 8 2))
    (fun t => t.regs.frame == 1 && t.regs.cycle == 0 && t.presented.length == 1) = true := by
  decide +kernel

/-- The word of the WR ADDR row runs it as the first step after reset. -/
theorem test_withFetchWord_wr6 : gives (step (State.reset.withFetchWord 16 0x0E20))
    (fun t => t.regs.vramAddr == 0x2000#14) = true := by decide +kernel

/-- V14: the hit, and VBLANK_START after it. -/
theorem test_sprite0Hit : gives (run 0x1000#16 1 (due .sprite0Hit 10354))
    (fun t => t.regs.stat.spr0Hit && decide (t.regs.nextAction = .vblankStart) &&
      t.regs.nextActionCycle == 82182 && t.regs.cycle == 10354) = true := by decide +kernel

/-! ### Witnesses: every obligation's hypotheses met together, its clauses at the ends of their ranges -/

theorem witness_EncodeThenDecodeIsIdentity :
    wellFormed (.oamdma 0xFF#8 (List.replicate 256 0xFF#8)) = true ∧
      wellFormed (.tileq 1#1 0xFF#8) = true := by decide +kernel

theorem witness_EveryWordDecodesByItsFields :
    ((0x07FF#16).toNat / 4096 = 0 ∧ (0x07FF#16).toNat / 2048 % 2 = 0) ∧
      ((0x0FFF#16).toNat / 4096 = 0 ∧ (0x0FFF#16).toNat / 2048 % 2 = 1) ∧
      (0x1FFF#16).toNat / 4096 = 1 ∧
      ((0x2FFF#16).toNat / 4096 = 2 ∧ (List.replicate 256 (0#8 : Byte)).length = 256 ∧
        ([] : List Byte).length ≠ 256 ∧ (List.replicate 257 (0#8 : Byte)).length ≠ 256) ∧
      (0x3FFF#16).toNat / 4096 = 3 ∧ (0x4FFF#16).toNat / 4096 = 4 ∧
      (0x5FFF#16).toNat / 4096 = 5 ∧ (0x6FFF#16).toNat / 4096 = 6 ∧
      7 ≤ (0x7000#16).toNat / 4096 ∧ 7 ≤ (0xFFFF#16).toNat / 4096 := by decide +kernel

/-- The reset state with requests waiting. -/
abbrev waiting (q : List Request) : State := { State.reset with requests := q }

theorem witness_StepRunsTheOldestRequest :
    (waiting [.busRead 7, .busRead 0]).requests = [.busRead 7, .busRead 0] ∧
      decodeRequest (.busRead 7) = .ok .rd7 ∧ State.reset.requests = [] := ⟨rfl, rfl, rfl⟩

theorem witness_StepRunsTheDueAction :
    decodeCommand ⟨0x1000#16, 82182, []⟩ = .ok (.advance 82182) ∧
      (waiting [.command ⟨0x1000#16, 82182, []⟩]).Running ∧
      State.reset.regs.cycle + 82182 = State.reset.regs.nextActionCycle := ⟨rfl, rfl, rfl⟩

theorem witness_RegisterIndexOutOfRangeHalts :
    8 ≤ 8 ∧ (waiting [.busRead 8]).Running ∧ (waiting [.busRead 8]).requests = [.busRead 8] ∧
      (waiting [.busWrite 8 0#8]).requests = [.busWrite 8 0#8] := ⟨Nat.le_refl 8, rfl, rfl, rfl⟩

theorem witness_ReservedTagIsRefused :
    (waiting [.command ⟨0x7000#16, 0, []⟩]).requests = [.command ⟨0x7000#16, 0, []⟩] ∧
      7 ≤ (0x7000#16).toNat / 4096 ∧ 7 ≤ (0xF000#16).toNat / 4096 ∧
      (waiting [.command ⟨0x2000#16, 0, []⟩]).requests = [.command ⟨0x2000#16, 0, []⟩] ∧
      (0x2000#16).toNat / 4096 = 2 ∧ ([] : List Byte).length ≠ 256 :=
  ⟨rfl, by decide, by decide, rfl, rfl, by decide⟩

theorem witness_WriteOnlyReadsReturnTheLatch :
    State.reset.Running ∧ Instr.rd0 ∈ [Instr.rd0, .rd1, .rd3, .rd5, .rd6] ∧
      Instr.rd6 ∈ [Instr.rd0, .rd1, .rd3, .rd5, .rd6] := ⟨rfl, by decide, by decide⟩

theorem witness_StatusReadReportsAndClears : State.reset.Running := rfl
theorem witness_OamDataReadReturnsTheByte : State.reset.Running := rfl

theorem witness_DataReadIsOneBehind :
    (at_ fun r => { r with vramAddr := 0x3EFF#14 }).Running ∧ (0x3EFF#14).toNat < 0x3F00 ∧
      (at_ fun r => { r with vramAddr := 0x3F00#14 }).Running ∧ 0x3F00 ≤ (0x3F00#14).toNat ∧
      0x3F00 ≤ (0x3FFF#14).toNat := ⟨rfl, by decide, rfl, by decide, by decide⟩

theorem witness_EveryBusWriteSetsTheLatch :
    State.reset.Running ∧ busWriteData (.wr0 0x40#8) = some 0x40#8 ∧
      busWriteData (.wr7 0xFF#8) = some 0xFF#8 := ⟨rfl, rfl, rfl⟩

theorem witness_ControlWriteDecodesTheByte :
    State.reset.Running ∧ (0xBF#8).toNat / 64 % 2 = 0 := ⟨rfl, rfl⟩

theorem witness_MasterSlaveBitHalts :
    State.reset.Running ∧ (0x40#8).toNat / 64 % 2 = 1 ∧
      ∃ t r, exec (.wr0 0x40#8) State.reset = .next t ∧ t.run = .halted .masterSlaveSet r :=
  ⟨rfl, rfl, _, _, rfl, rfl⟩

theorem witness_MaskWriteDecodesTheByte : State.reset.Running := rfl
theorem witness_StatusWriteOnlyLatches : State.reset.Running := rfl
theorem witness_OamAddressWriteSetsThePointer : State.reset.Running := rfl

theorem witness_OamDataWriteStoresAndIncrements :
    (at_ fun r => { r with oamAddr := 0xFF#8 }).Running ∧
      Memory.wf (at_ fun r => { r with oamAddr := 0xFF#8 }).regs.oam = true ∧
      0 ≠ (0xFF#8).toNat ∧ 254 ≠ (0xFF#8).toNat := ⟨rfl, rfl, by decide, by decide⟩

/-- The reset state with both toggles set. -/
abbrev toggled : State := at_ fun r => { r with nextScroll := true, nextAddr := true }

theorem witness_ScrollWriteSetsOneComponent :
    State.reset.Running ∧ State.reset.regs.nextScroll = false ∧ toggled.Running ∧
      toggled.regs.nextScroll = true := ⟨rfl, rfl, rfl, rfl⟩

theorem witness_ScrollPairBindsFirstToX :
    State.reset.Running ∧ State.reset.regs.nextScroll = false ∧ toggled.Running ∧
      toggled.regs.nextScroll = true ∧ (0x12#8 : Byte) ≠ 0x34#8 ∧ ∃ t u, execAll [.wr5 0x12#8, .wr5 0x34#8] State.reset = .next t ∧
        execAll [.wr5 0x34#8, .wr5 0x12#8] State.reset = .next u :=
  ⟨rfl, rfl, rfl, rfl, by decide, _, _, rfl, rfl⟩

theorem witness_AddressWriteReplacesHalf :
    State.reset.Running ∧ State.reset.regs.nextAddr = false ∧ toggled.Running ∧
      toggled.regs.nextAddr = true := ⟨rfl, rfl, rfl, rfl⟩

theorem witness_AddressPairFormsThePointer :
    State.reset.Running ∧ State.reset.regs.nextAddr = false ∧ toggled.Running ∧
      toggled.regs.nextAddr = true := ⟨rfl, rfl, rfl, rfl⟩

theorem witness_DataWriteStoresThrough :
    State.reset.Running ∧ Memory.wf State.reset.regs.pal = true ∧ (0x3EFF#14).toNat < 0x3F00 ∧
      0x3F00 ≤ (0x3F00#14).toNat ∧ 0x3F00 ≤ (0x3FFF#14).toNat ∧
      palIndex 0x3FFF#14 ≠ palIndex 0x3F00#14 :=
  ⟨rfl, rfl, by decide, by decide, by decide, by decide⟩

/-- A mapper with writable pattern memory. -/
abbrev chrRam : RefNROM := { chr := [], chrWritable := true, nt := [], mirroring := .horizontal }

theorem witness_ReferenceMapperStores :
    Memory.wf chrRam.chr = true ∧ Memory.wf chrRam.nt = true ∧
      ((0x1FFF#14).toNat < 0x2000 ∧ chrRam.chrWritable = true) ∧
      ((0x1FFF#14).toNat < 0x2000 ∧ { chrRam with chrWritable := false }.chrWritable = false) ∧
      (0x2000 ≤ (0x2000#14).toNat ∧ (0x2000#14).toNat < 0x3F00 ∧ (0x1FFF#14).toNat < 0x2000) ∧
      (0x2000 ≤ (0x3EFF#14).toNat ∧ (0x3EFF#14).toNat < 0x3F00 ∧
        nromNtIndex .horizontal (0x2000#14).toNat ≠ nromNtIndex .horizontal (0x3EFF#14).toNat) := by
  decide +kernel

theorem witness_PaletteIndexAliases :
    0x3F00 ≤ (0x3F00#14).toNat ∧ 0x3F00 ≤ (0x3FE0#14).toNat ∧
      (0x3F00#14).toNat % 32 = (0x3FE0#14).toNat % 32 ∧ 0 < 4 ∧ 3 < 4 := by decide +kernel

theorem witness_BusCommandsKeepTheClockAndCaches :
    isBus .rd0 = true ∧ isBus (.wr7 0xFF#8) = true := ⟨rfl, rfl⟩

theorem witness_AdvanceFollowsTheLoop :
    State.reset.Running ∧ State.reset.regs.cycle + 82181 < State.reset.regs.nextActionCycle ∧
      State.reset.regs.nextActionCycle ≤ State.reset.regs.cycle + 82182 :=
  ⟨rfl, by decide, by decide⟩

theorem witness_AdvanceIsAssociative :
    (State.reset.Running → State.reset.regs.nextActionCycle ≤ 89342) ∧
      ((due .draw 89342).Running → (due .draw 89342).regs.nextActionCycle ≤ 89342) :=
  ⟨fun _ => by decide, fun _ => by decide⟩

theorem reset_inv : State.reset.Inv :=
  ⟨by decide, fun _ => ⟨by decide, by decide, rfl⟩, rfl, rfl, ⟨rfl, rfl⟩, ⟨rfl, rfl⟩,
    ⟨rfl, rfl, rfl, rfl⟩, ⟨⟨rfl, rfl⟩, ⟨rfl, rfl⟩⟩⟩

theorem witness_AdvanceAccountsForEveryCycle : State.reset.Inv ∧ State.reset.Running :=
  ⟨reset_inv, rfl⟩

/-- The reset state at a cycle, with given parameters. -/
abbrev atCycle (c : Nat) (start end_ : Nat) : State :=
  { (at_ fun r => { r with cycle := c }) with
    params := { Params.default with vblankStartCycle := start, vblankEndCycle := end_ } }

theorem witness_VblankStartRaisesFlagAndNmi :
    (atCycle 89341 82182 89342).Running ∧
      (atCycle 89341 82182 89342).regs.cycle < (atCycle 89341 82182 89342).params.vblankEndCycle ∧
      (atCycle 89341 82182 89342).params.vblankEndCycle ≤ 89342 := ⟨rfl, by decide, by decide⟩

theorem witness_VblankEndRebuildsAndClears :
    (atCycle 89341 82182 89002).Running ∧ (atCycle 89341 82182 89002).regs.cycle < 89342 ∧
      mirroringOf (atCycle 89341 82182 89002).mapper ≠ .other := ⟨rfl, by decide, by decide⟩

/-- The reset state with a mapper in a third mirroring mode. -/
abbrev fourScreen : State :=
  { State.reset with
    mapper := .refNROM { chr := [], chrWritable := false, nt := [], mirroring := .other } }

theorem witness_UnsupportedMirroringHalts :
    fourScreen.Running ∧ mirroringOf fourScreen.mapper = .other ∧ fourScreen.gridValid = false ∧
      { fourScreen with gridValid := true }.Running ∧
      mirroringOf { fourScreen with gridValid := true }.mapper = .other :=
  ⟨rfl, rfl, rfl, rfl, rfl⟩

theorem witness_DrawRebuildsAnInvalidGrid :
    State.reset.Running ∧ State.reset.gridValid = false ∧ mirroringOf State.reset.mapper ≠ .other :=
  ⟨rfl, rfl, by decide⟩

/-- A state about to draw: grid valid, cycle 0, both layers as given, sprite 0 at `y`. -/
abbrev drawing (bg spr : Bool) (y : Byte) (size : Bool) : State :=
  { (at_ fun r => { r with
      oam := Memory.write [] 0 y
      ctrl := { r.ctrl with sprSize := size }
      mask := { r.mask with showBg := bg, showSpr := spr } }) with gridValid := true }

theorem witness_DrawWithoutPredictionSchedulesVblank :
    (drawing true true 0xEF#8 false).Running ∧ (drawing true true 0xEF#8 false).gridValid = true ∧
      (drawing true true 0xEF#8 false).regs.cycle < Params.default.vblankStartCycle ∧
      Params.default.vblankStartCycle ≤ 89342 ∧
      (drawing false true 0#8 false).regs.mask.showBg = false ∧
      (drawing true false 0#8 false).regs.mask.showSpr = false ∧
      240 ≤ (oamByte (drawing true true 0xEF#8 false) 0).toNat + 1 :=
  ⟨rfl, rfl, by decide, by decide, rfl, rfl, by decide⟩

theorem witness_DrawInTallSpriteModeHalts :
    (drawing true true 0xEE#8 true).Running ∧ (drawing true true 0xEE#8 true).gridValid = true ∧
      (drawing true true 0xEE#8 true).regs.mask.showBg = true ∧
      (drawing true true 0xEE#8 true).regs.mask.showSpr = true ∧
      (oamByte (drawing true true 0xEE#8 true) 0).toNat + 1 < 240 ∧
      (drawing true true 0xEE#8 true).regs.ctrl.sprSize = true :=
  ⟨rfl, rfl, rfl, rfl, by decide, rfl⟩

theorem witness_DrawPredictsTheFirstHit :
    (drawing true true 0xEE#8 false).Running ∧ (drawing true true 0xEE#8 false).params.Ok ∧
      (drawing true true 0xEE#8 false).regs.cycle = 0 ∧
      (drawing true true 0xEE#8 false).gridValid = true ∧
      (drawing true true 0xEE#8 false).regs.mask.showBg = true ∧
      (drawing true true 0xEE#8 false).regs.mask.showSpr = true ∧
      (oamByte (drawing true true 0xEE#8 false) 0).toNat + 1 < 240 ∧
      (drawing true true 0xEE#8 false).regs.ctrl.sprSize = false :=
  ⟨rfl, by decide, rfl, rfl, rfl, rfl, by decide, rfl⟩

theorem witness_Sprite0HitSetsTheFlag :
    (atCycle 82181 82182 89002).Running ∧
      (atCycle 82181 82182 89002).regs.cycle < (atCycle 82181 82182 89002).params.vblankStartCycle ∧
      (atCycle 82181 82182 89002).params.vblankStartCycle ≤ 89342 := ⟨rfl, by decide, by decide⟩

theorem witness_SchedulingBackwardHalts :
    (atCycle 89002 82182 89002).Running ∧
      (atCycle 89002 82182 89002).params.vblankEndCycle ≤ (atCycle 89002 82182 89002).regs.cycle ∧
      89342 < (atCycle 0 82182 89343).params.vblankEndCycle ∧
      (atCycle 82182 82182 89002).params.vblankStartCycle ≤ (atCycle 82182 82182 89002).regs.cycle ∧
      89342 < (atCycle 0 89343 89002).params.vblankStartCycle ∧
      89342 ≤ (atCycle 89342 82182 89002).regs.cycle ∧
      mirroringOf (atCycle 89342 82182 89002).mapper ≠ .other :=
  ⟨rfl, by decide, by decide, by decide, by decide, by decide, by decide⟩

theorem witness_OamDmaCopiesThePage :
    State.reset.Running ∧ Memory.wf State.reset.regs.oam = true ∧
      (List.replicate 256 (0xFF#8 : Byte)).length = 256 ∧ 0 < 256 ∧ 255 < 256 ∧ 256 ≤ 256 ∧
      (List.replicate 255 (0xFF#8 : Byte)).length ≠ 256 ∧
      (List.replicate 257 (0xFF#8 : Byte)).length ≠ 256 :=
  ⟨rfl, rfl, List.length_replicate, by decide, by decide, by decide,
    by rw [List.length_replicate]; decide, by rw [List.length_replicate]; decide⟩

theorem witness_OamDmaEqualsDataWrites :
    State.reset.Running ∧ (List.replicate 256 (0xFF#8 : Byte)).length = 256 :=
  ⟨rfl, List.length_replicate⟩

theorem witness_PollReturnsAndClearsNmi : State.reset.Running := rfl
theorem witness_ChrRemapHalts : State.reset.Running := rfl

/-- The reset state with every tile filled. -/
abbrev allCached : State :=
  { State.reset with tileCache := Vector.replicate 512 (some (Vector.replicate 64 3#2)) }

theorem witness_TileQueryAnswersAndCaches :
    State.reset.Running ∧ State.reset.tileCache[tileKey 1#1 0xFF#8] = none ∧ allCached.Running ∧
      allCached.tileCache[tileKey 1#1 0xFF#8] = some (Vector.replicate 64 3#2) ∧
      ((0#1 : BitVec 1), (0#8 : Byte)) ≠ (1#1, 0xFF#8) :=
  ⟨rfl, by simp [State.reset, State.fresh], rfl, by simp, by decide⟩

/-- The reset state halted. -/
abbrev haltedReset : State := State.reset.halt .masterSlaveSet

theorem witness_HaltedCommandsChangeNothing :
    haltedReset.run = .halted .masterSlaveSet State.reset.regs ∧
      wellFormed (.oamdma 0#8 (List.replicate 256 0#8)) = true ∧
      Instr.oamdma 0#8 (List.replicate 256 0#8) ≠ .reset ∧ Instr.rd0 ≠ .reset :=
  ⟨rfl, by decide +kernel, Instr.noConfusion, by decide⟩

theorem witness_HaltIsPrecise :
    State.reset.Running ∧
      ∃ t c r, exec .chrremap State.reset = .next t ∧ t.run = .halted c r :=
  ⟨rfl, _, _, _, rfl, rfl⟩

/-- Each cause, from a Running state, by an instruction of its own. -/
theorem witness_HaltCausesHaveTheirSources :
    (State.reset.Running ∧ gives (exec (.wr0 0x40#8) State.reset)
      (fun t => decide (t.run = .halted .masterSlaveSet t.regs)) = true) ∧
    ((atCycle 89002 82182 89002).Running ∧ gives (exec .vblankStart (atCycle 89002 82182 89002))
      (fun t => decide (t.run = .halted .schedulerInvariant t.regs)) = true) ∧
    ((drawing true true 0#8 true).Running ∧ gives (exec .draw (drawing true true 0#8 true))
      (fun t => decide (t.run = .halted .sprite8x16 t.regs)) = true) ∧
    (fourScreen.Running ∧ gives (exec .vblankEnd fourScreen)
      (fun t => decide (t.run = .halted .unsupportedMirroring t.regs)) = true) ∧
    gives (exec .chrremap State.reset)
      (fun t => decide (t.run = .halted .bankedChrInvalidation t.regs)) = true := by
  decide +kernel

theorem witness_OnlyResetLeavesHalted :
    ∃ t, { haltedReset with requests := [.command ⟨0x4000#16, 0, []⟩] }.run =
        .halted .masterSlaveSet State.reset.regs ∧
      step { haltedReset with requests := [.command ⟨0x4000#16, 0, []⟩] } = .next t ∧ t.Running :=
  ⟨_, rfl, rfl, rfl⟩

theorem witness_MapperChangesOnlyByDataWrite :
    gives (exec (.wr7 1#8) (at_ fun r => { r with vramAddr := 0x3EFF#14 }))
      (fun t => decide (t.mapper ≠ State.reset.mapper)) = true := by decide +kernel

theorem witness_MemoriesHaveTheirWriters :
    gives (exec (.wr4 1#8) State.reset) (fun t => decide (t.regs.oam ≠ State.reset.regs.oam)) = true ∧
      gives (exec (.oamdma 0#8 (List.replicate 256 1#8)) State.reset)
        (fun t => decide (t.regs.oam ≠ State.reset.regs.oam)) = true ∧
      gives (exec (.wr7 1#8) (at_ fun r => { r with vramAddr := 0x3F00#14 }))
        (fun t => decide (t.regs.pal ≠ State.reset.regs.pal)) = true ∧
      gives (exec .rd7 (on [] [(0, 1#8)] (at_ fun r => { r with vramAddr := 0x2000#14 })))
        (fun t => decide (t.regs.readBuf ≠ State.reset.regs.readBuf)) = true := by decide +kernel

theorem witness_NmiFlagHasItsWriters :
    gives (exec .vblankStart (at_ fun r => { r with ctrl := { r.ctrl with nmiEnable := true } }))
        (fun t => t.regs.nmiPending) = true ∧
      gives (exec .pollnmi (at_ fun r => { r with nmiPending := true }))
        (fun t => !t.regs.nmiPending) = true := by decide +kernel

theorem witness_FilledTilesStayUntilReset :
    (∃ t, exec .rd0 allCached = .next t) ∧ Instr.rd0 ≠ .reset ∧
      allCached.tileCache[(511 : Fin 512)] = some (Vector.replicate 64 3#2) :=
  ⟨⟨_, rfl⟩, by decide, by simp⟩

theorem witness_ScrollBytesInfluenceNothing :
    (∀ d, Instr.draw ≠ .wr5 d) ∧ Instr.draw ≠ .reset := ⟨fun _ => by simp, by decide⟩

theorem witness_EveryStepKeepsTheInvariant :
    State.reset.Inv ∧ ∃ t, step State.reset = .next t := ⟨reset_inv, _, rfl⟩

theorem witness_SchedulerHaltIsUnreachable :
    State.reset.Inv ∧ State.reset.Running ∧ ∃ t, step State.reset = .next t :=
  ⟨reset_inv, rfl, _, rfl⟩

theorem reset_faithful : State.reset.CacheFaithful := by
  intro half id t h
  simp [State.reset, State.fresh] at h

theorem witness_RomTilesStayFaithful :
    State.reset.mapper.PatternRom ∧ State.reset.CacheFaithful ∧
      ∃ t, step State.reset = .next t := ⟨rfl, reset_faithful, _, rfl⟩

theorem reset_fresh : State.reset.FreshCore :=
  ⟨rfl, rfl, rfl, rfl, rfl, rfl, rfl, rfl, rfl, fun _ => rfl, rfl, ⟨rfl, rfl⟩, ⟨rfl, rfl⟩, rfl,
    fun _ => rfl, rfl, fun _ => by simp [State.reset, State.fresh], rfl, rfl⟩

theorem witness_FaithfulCacheIsTransparent :
    State.reset.FreshCore ∧ State.reset.CacheFaithful ∧ State.reset.Running :=
  ⟨reset_fresh, reset_faithful, rfl⟩

/-- A state about to draw whose every tile is of colour `v`, sprite 0 at the screen's top left corner, with
parameters of its own. -/
abbrev drawingTiles (v : Bits2) (c start offset : Nat) : State :=
  { drawing true true 0#8 false with
    regs := { (drawing true true 0#8 false).regs with cycle := c }
    tileCache := Vector.replicate 512 (some (Vector.replicate 64 v))
    params := { Params.default with vblankStartCycle := start, sprite0CycleOffset := offset } }

theorem tileValue_drawingTiles (v : Bits2) (c start offset : Nat) (half : BitVec 1) (id : Byte) :
    tileValue (drawingTiles v c start offset) half id = Vector.replicate 64 v := by
  simp [tileValue]

/-- Its first pixel opaque in both layers is the sprite's first, (0, 1). -/
theorem drawingTiles_hit (c start offset : Nat) :
    (drawingTiles 3#2 c start offset).DoublyOpaque 0 1 ∧
      (drawingTiles 3#2 c start offset).NoHitBefore 0 1 := by
  have ht : (slotByte (drawingTiles 3#2 c start offset) 0 0).toNat = 0 := rfl
  have hl : (slotByte (drawingTiles 3#2 c start offset) 0 3).toNat = 0 := rfl
  refine ⟨⟨⟨?_, ?_, ?_⟩, ?_⟩, fun x y h => ?_⟩
  · simp only [ht]; omega
  · simp only [hl]; omega
  · rw [tileValue_drawingTiles]; simp [tilePixel]
  · rw [tileValue_drawingTiles]; simp [tilePixel]
  · have := h.1.1.1
    simp only [ht] at this
    omega

theorem drawingTiles_noHit (c start offset : Nat) (x y : Nat) :
    ¬ (drawingTiles 0#2 c start offset).DoublyOpaque x y := by
  rintro ⟨-, h⟩
  rw [tileValue_drawingTiles] at h
  simp [tilePixel] at h

/-- The state satisfies the premises under which DRAW predicts. -/
abbrev DrawPredicts (s : State) : Prop :=
  s.Running ∧ s.gridValid = true ∧ s.regs.mask.showBg = true ∧ s.regs.mask.showSpr = true ∧
    (oamByte s 0).toNat + 1 < 240 ∧ s.regs.ctrl.sprSize = false

theorem drawingTiles_predicts (v : Bits2) (c start offset : Nat) :
    DrawPredicts (drawingTiles v c start offset) :=
  ⟨rfl, rfl, rfl, rfl, (by decide : (oamByte (drawing true true 0#8 false) 0).toNat + 1 < 240), rfl⟩

/-- A state about to draw with the background off and VBLANK_START at `start`. -/
abbrev drawingLate (start : Nat) : State :=
  { drawing false true 0#8 false with params := { Params.default with vblankStartCycle := start } }

theorem witness_DrawSchedulingBackwardHalts :
    ((drawingLate 0).Running ∧ (drawingLate 0).gridValid = true ∧
        (drawingLate 0).regs.mask.showBg = false ∧
        (drawingLate 0).params.vblankStartCycle ≤ (drawingLate 0).regs.cycle ∧
        89342 < (drawingLate 89343).params.vblankStartCycle) ∧
      (DrawPredicts (drawingTiles 0#2 0 89343 1) ∧
        (∀ x y, ¬ (drawingTiles 0#2 0 89343 1).DoublyOpaque x y) ∧
        89342 < (drawingTiles 0#2 0 89343 1).params.vblankStartCycle) ∧
      (DrawPredicts (drawingTiles 3#2 0 82182 89002) ∧
        (drawingTiles 3#2 0 82182 89002).DoublyOpaque 0 1 ∧
        (drawingTiles 3#2 0 82182 89002).NoHitBefore 0 1 ∧ 89342 < 1 * 341 + 0 + 89002) ∧
      DrawPredicts (drawingTiles 3#2 342 82182 1) ∧
        (drawingTiles 3#2 342 82182 1).DoublyOpaque 0 1 ∧
        (drawingTiles 3#2 342 82182 1).NoHitBefore 0 1 ∧
        1 * 341 + 0 + 1 ≤ (drawingTiles 3#2 342 82182 1).regs.cycle :=
  ⟨⟨rfl, rfl, rfl, by decide, by decide⟩,
    ⟨drawingTiles_predicts 0#2 0 89343 1, drawingTiles_noHit 0 89343 1, by decide⟩,
    ⟨drawingTiles_predicts 3#2 0 82182 89002, (drawingTiles_hit 0 82182 89002).1,
      (drawingTiles_hit 0 82182 89002).2, by decide⟩,
    drawingTiles_predicts 3#2 342 82182 1, (drawingTiles_hit 342 82182 1).1,
    (drawingTiles_hit 342 82182 1).2, by decide⟩

end Sys2Proof.Tests
end

/-! # The scope's statements: power-up, the step, the invariant, ADVANCE's count and the prediction -/

namespace Sys2Proof.Machine

open Sys2Proof

/-! ### R8 and a fresh core (R45) -/

/-- R8 puts VBLANK_START within the frame. -/
theorem vblankStart_le_frame {p : Params} (h : p.Ok) : p.vblankStartCycle ≤ Config.cyclesPerFrame := by
  obtain ⟨-, horder, hframe⟩ := h
  exact (horder.trans hframe).le

theorem vblankStart_pos {p : Params} (h : p.Ok) : 0 < p.vblankStartCycle := Nat.zero_lt_of_lt h.1

/-- Every core built by `State.fresh` has R45's values, whatever stands beside it. -/
theorem fresh_freshCore (m : Mapper) (shown : List FrameRecord) (p : Params)
    (waiting : List Request) : (State.fresh m shown p waiting).FreshCore where
  cycle := rfl
  frame := rfl
  nextAction := rfl
  nextActionCycle := rfl
  ctrl := rfl
  mask := rfl
  stat := rfl
  latch := rfl
  oamAddr := rfl
  oam _ := rfl
  vramAddr := rfl
  scroll := ⟨rfl, rfl⟩
  toggles := ⟨rfl, rfl⟩
  readBuf := rfl
  pal _ := rfl
  nmiPending := rfl
  tileCache k := by simp [State.fresh]
  gridValid := rfl
  running := rfl

/-- A fresh core meets the invariant when its parameters satisfy R8 and its mapper's memories fit. -/
theorem fresh_inv {m : Mapper} (shown : List FrameRecord) {p : Params} (waiting : List Request)
    (hp : p.Ok) (hm : m.Fits) : (State.fresh m shown p waiting).Inv where
  params := hp
  clock _ := ⟨vblankStart_pos hp, vblankStart_le_frame hp, rfl⟩
  masterSlave := rfl
  overflow := rfl
  oam := reset_oam_fits p
  pal := reset_pal_fits p
  palAliases := ⟨rfl, rfl, rfl, rfl⟩
  mapper := hm

theorem default_ok : Params.default.Ok := by decide

theorem initial_fits : Mapper.initial.Fits := ⟨fits_nil _, fits_nil _⟩

/-- RESET restores the invariant (R212). -/
theorem resetCore_inv {s : State} (h : s.Inv) : (resetCore s).Inv :=
  fresh_inv s.presented s.requests h.params h.mapper

/-! ### What a command may do to the components the invariant speaks of -/

/-- Not halted by Schedule's test (R222). -/
abbrev NoF2 (s : State) : Prop := ∀ r, s.run ≠ .halted .schedulerInvariant r

/-- What a command other than ADVANCE and RESET does to the components of R44: it leaves the clock,
master/slave, overflow and the parameters alone, its memory writes keep each memory's form, and it halts, if
at all, with another cause than F2. Each field's default proves it of a change that does not reach the field's
component. -/
structure CommandKeeps (s t : State) : Prop where
  cycle : t.regs.cycle = s.regs.cycle := by rfl
  nextAction : t.regs.nextAction = s.regs.nextAction := by rfl
  nextActionCycle : t.regs.nextActionCycle = s.regs.nextActionCycle := by rfl
  masterSlave : t.regs.ctrl.masterSlave = s.regs.ctrl.masterSlave := by rfl
  overflow : t.regs.stat.overflow = s.regs.stat.overflow := by rfl
  params : t.params = s.params := by rfl
  oam : Memory.Fits Config.oamSize s.regs.oam → Memory.Fits Config.oamSize t.regs.oam := by exact fun h => h
  pal : Memory.Fits Config.paletteSize s.regs.pal ∧ PaletteAliasesUnused s.regs.pal →
    Memory.Fits Config.paletteSize t.regs.pal ∧ PaletteAliasesUnused t.regs.pal := by exact fun h => h
  mapper : s.mapper.Fits → t.mapper.Fits := by exact fun h => h
  run : t.run = s.run ∨ ∃ c r, t.run = .halted c r ∧ c ≠ .schedulerInvariant := by exact .inl rfl

namespace CommandKeeps

theorem refl (s : State) : CommandKeeps s s := {}

theorem trans {s t u : State} (h : CommandKeeps s t) (h' : CommandKeeps t u) : CommandKeeps s u where
  cycle := h'.cycle.trans h.cycle
  nextAction := h'.nextAction.trans h.nextAction
  nextActionCycle := h'.nextActionCycle.trans h.nextActionCycle
  masterSlave := h'.masterSlave.trans h.masterSlave
  overflow := h'.overflow.trans h.overflow
  params := h'.params.trans h.params
  oam := h'.oam ∘ h.oam
  pal := h'.pal ∘ h.pal
  mapper := h'.mapper ∘ h.mapper
  run := by
    rcases h'.run with e | hhalt
    · rw [e]; exact h.run
    · exact .inr hhalt

/-- What keeps these components keeps the invariant. -/
theorem inv {s t : State} (h : CommandKeeps s t) (hs : s.Inv) : t.Inv where
  params := h.params ▸ hs.params
  clock hr := by
    have hrun : s.Running := by
      rcases h.run with e | ⟨c, r, e, -⟩
      · exact e.symm.trans hr
      · cases e.symm.trans hr
    obtain ⟨hahead, hframe, hlegal⟩ := hs.clock hrun
    constructor
    · rw [h.cycle, h.nextActionCycle]; exact hahead
    · rw [h.nextActionCycle]; exact hframe
    · rw [h.params, h.nextAction, h.nextActionCycle]; exact hlegal
  masterSlave := h.masterSlave.trans hs.masterSlave
  overflow := h.overflow.trans hs.overflow
  oam := h.oam hs.oam
  pal := (h.pal ⟨hs.pal, hs.palAliases⟩).1
  palAliases := (h.pal ⟨hs.pal, hs.palAliases⟩).2
  mapper := h.mapper hs.mapper

theorem noF2 {s t : State} (h : CommandKeeps s t) (hs : NoF2 s) : NoF2 t := by
  intro r e
  rcases h.run with e' | ⟨c, r', e', hc⟩
  · exact hs r (e'.symm.trans e)
  · rw [e', Run.halted.injEq] at e
    exact hc e.1

end CommandKeeps

theorem clearReply_keeps (s : State) : CommandKeeps s s.clearReply := {}

theorem withRequests_keeps (s : State) (rest : List Request) :
    CommandKeeps s { s with requests := rest } := {}

theorem halt_keeps {c : HaltCause} (hc : c ≠ .schedulerInvariant) (s : State) :
    CommandKeeps s (s.halt c) :=
  { run := .inr ⟨c, s.regs, rfl, hc⟩ }

/-- A command keeps what its body keeps (R213). -/
theorem perform_keeps {body : State → State} (hb : ∀ s, CommandKeeps s (body s)) {s t : State}
    (h : perform body s = .next t) : CommandKeeps s t := by
  rcases perform_cases h with ⟨-, rfl⟩ | ⟨-, rfl⟩
  · exact (clearReply_keeps s).trans (hb _)
  · exact clearReply_keeps s

/-! ### Bus reads -/

theorem readLatch_keeps (s : State) : CommandKeeps s (readLatch s) := {}
theorem readStatus_keeps (s : State) : CommandKeeps s (readStatus s) := {}
theorem readOam_keeps (s : State) : CommandKeeps s (readOam s) := {}
theorem readData_keeps (s : State) : CommandKeeps s (readData s) := {}

/-! ### Bus writes -/

theorem setLatch_keeps (d : Byte) (s : State) : CommandKeeps s (setLatch d s) := {}

/-- A bus write keeps what its effect keeps (R150). -/
theorem busWrite_keeps {d : Byte} {effect : State → State} (he : ∀ s, CommandKeeps s (effect s))
    {s t : State} (h : busWrite d effect s = .next t) : CommandKeeps s t :=
  perform_keeps (fun s => (setLatch_keeps d s).trans (he _)) h

/-- Master/slave is never stored: a byte with bit 6 set halts first (R159). -/
theorem writeCtrl_keeps (d : Byte) (s : State) : CommandKeeps s (writeCtrl d s) := by
  rw [writeCtrl]
  split
  · exact halt_keeps HaltCause.noConfusion s
  · exact {}

theorem writeMask_keeps (d : Byte) (s : State) : CommandKeeps s (writeMask d s) := {}
theorem writeOamAddr_keeps (d : Byte) (s : State) : CommandKeeps s (writeOamAddr d s) := {}
theorem writeScroll_keeps (d : Byte) (s : State) : CommandKeeps s (writeScroll d s) := {}
theorem writeAddr_keeps (d : Byte) (s : State) : CommandKeeps s (writeAddr d s) := {}

theorem writeOamData_keeps (d : Byte) (s : State) : CommandKeeps s (writeOamData d s) :=
  { oam := fun h => write_fits h s.regs.oamAddr.isLt d }

theorem vramWrite_keeps (a : VAddr) (v : Byte) (s : State) : CommandKeeps s (vramWrite a v s) := by
  rcases vramWrite_cases a v s with ⟨-, e⟩ | ⟨-, e⟩ <;> rw [e]
  · exact { pal := fun ⟨hfits, halias⟩ =>
      ⟨write_fits hfits (palIndex_lt a) v, aliases_unused_write hfits.1 halias a v⟩ }
  · exact { mapper := fun h => ppuWrite_fits h a v }

theorem writeData_keeps (d : Byte) (s : State) : CommandKeeps s (writeData d s) :=
  (vramWrite_keeps s.regs.vramAddr d s).trans {}

/-! ### Host ports and the tile port -/

theorem pollNmi_keeps (s : State) : CommandKeeps s (pollNmi s) := {}

theorem copyToOam_keeps (src : List Byte) (s : State) : CommandKeeps s (copyToOam src s) :=
  { oam := dmaCopy_fits src s.regs.oamAddr }

theorem execOamdma_keeps {page : Byte} {src : List Byte} {s t : State}
    (h : execOamdma page src s = .next t) : CommandKeeps s t := by
  rw [execOamdma] at h
  split at h
  · exact perform_keeps (copyToOam_keeps src) h
  · cases h

theorem tileQuery_keeps (half : BitVec 1) (id : Byte) (s : State) :
    CommandKeeps s ((tileFill half id s).answer (.pixels (tileValue s half id))) := by
  rw [tileFill_sameButCache half id s]
  exact {}

/-! ### Every instruction a request can decode to, and every step -/

/-- What an instruction that is no event action can answer: ADVANCE's loop, RESET's fresh core, or a state in
which the components of R44 are kept. -/
theorem exec_cases {i : Instr} {s t : State}
    (hi : i ≠ .vblankStart ∧ i ≠ .vblankEnd ∧ i ≠ .draw ∧ i ≠ .sprite0Hit)
    (h : exec i s = .next t) :
    (∃ n, t = advanced n s.clearReply) ∨ t = resetCore s ∨ CommandKeeps s t := by
  obtain ⟨hstart, hend, hdraw, hhit⟩ := hi
  cases i with
  | rd0 | rd1 | rd3 | rd5 | rd6 => exact .inr (.inr (perform_keeps readLatch_keeps h))
  | rd2 => exact .inr (.inr (perform_keeps readStatus_keeps h))
  | rd4 => exact .inr (.inr (perform_keeps readOam_keeps h))
  | rd7 => exact .inr (.inr (perform_keeps readData_keeps h))
  | wr0 d => exact .inr (.inr (busWrite_keeps (writeCtrl_keeps d) h))
  | wr1 d => exact .inr (.inr (busWrite_keeps (writeMask_keeps d) h))
  | wr2 d => exact .inr (.inr (busWrite_keeps CommandKeeps.refl h))
  | wr3 d => exact .inr (.inr (busWrite_keeps (writeOamAddr_keeps d) h))
  | wr4 d => exact .inr (.inr (busWrite_keeps (writeOamData_keeps d) h))
  | wr5 d => exact .inr (.inr (busWrite_keeps (writeScroll_keeps d) h))
  | wr6 d => exact .inr (.inr (busWrite_keeps (writeAddr_keeps d) h))
  | wr7 d => exact .inr (.inr (busWrite_keeps (writeData_keeps d) h))
  | advance n =>
    rw [exec_advance, Host.Outcome.next.injEq] at h
    exact .inl ⟨n, h.symm⟩
  | oamdma page src => exact .inr (.inr (execOamdma_keeps (page := page) h))
  | pollnmi => exact .inr (.inr (perform_keeps pollNmi_keeps h))
  | reset => exact .inr (.inl (Host.Outcome.next.inj h).symm)
  | chrremap => exact .inr (.inr (perform_keeps (halt_keeps HaltCause.noConfusion) h))
  | tileq half id => exact .inr (.inr (perform_keeps (tileQuery_keeps half id) h))
  | vblankStart => exact absurd rfl hstart
  | vblankEnd => exact absurd rfl hend
  | draw => exact absurd rfl hdraw
  | sprite0Hit => exact absurd rfl hhit

/-- With nothing waiting the machine stays (R240). -/
theorem step_idle {s : State} (h : s.requests = []) : step s = .next s := by
  simp only [step, h]

/-- A request that is no command halts with F3 or has no next state (R117, R223). -/
theorem rejectRequest_keeps {e : DecodeError} {s t : State} (h : rejectRequest e s = .next t) :
    CommandKeeps s t := by
  cases e with
  | registerIndex index => exact perform_keeps (halt_keeps HaltCause.noConfusion) h
  | reservedTag tag => cases h
  | sourceLength length => cases h

/-- What a step can answer, in terms of the components of R44: ADVANCE's loop or RESET from a state that has
kept them, or a state that has. -/
theorem step_keeps_cases {s t : State} (h : step s = .next t) :
    (∃ n u, CommandKeeps s u ∧ t = advanced n u) ∨
      (∃ u, CommandKeeps s u ∧ t = resetCore u) ∨ CommandKeeps s t := by
  rcases step_cases s with ⟨-, e⟩ | ⟨q, rest, i, -, hi, e⟩ | ⟨q, rest, err, -, -, e⟩
  · obtain rfl := Host.Outcome.next.inj (e.symm.trans h)
    exact .inr (.inr (.refl s))
  · have htake := withRequests_keeps s rest
    rcases exec_cases (decodeRequest_not_event hi) (e.symm.trans h) with ⟨n, rfl⟩ | rfl | hk
    · exact .inl ⟨n, _, htake.trans (clearReply_keeps _), rfl⟩
    · exact .inr (.inl ⟨_, htake, rfl⟩)
    · exact .inr (.inr (htake.trans hk))
  · exact .inr (.inr ((withRequests_keeps s rest).trans (rejectRequest_keeps (e.symm.trans h))))

/-! ### The invariant along ADVANCE -/

/-- What the scheduler leaves alone, and a clock in order, make the invariant. -/
theorem ActionFrame.inv {s t : State} (h : ActionFrame s t) (hs : s.Inv)
    (hk : t.Running → ClockOk t.params t.regs) : t.Inv where
  params := h.params ▸ hs.params
  clock := hk
  masterSlave := h.ctrl ▸ hs.masterSlave
  overflow := h.overflow.trans hs.overflow
  oam := h.oam ▸ hs.oam
  pal := h.pal ▸ hs.pal
  palAliases := h.pal ▸ hs.palAliases
  mapper := h.mapper ▸ hs.mapper

theorem fire_inv {s : State} (hr : s.Running) (h : s.Inv) :
    (fire s.regs.nextAction (arrive s)).Inv :=
  ((frame_arrive s).trans (frame_fire _ _)).inv h (clockAfter_fire hr h.params (h.clock hr)).clock

/-- Short of the outstanding action the cycle does not wrap (R44 a). -/
theorem move_mod {s : State} (hr : s.Running) (h : s.Inv) {rem : Nat}
    (hrem : s.regs.cycle + rem < s.regs.nextActionCycle) :
    (s.regs.cycle + rem) % Config.cyclesPerFrame = s.regs.cycle + rem :=
  Nat.mod_eq_of_lt (hrem.trans_le (h.clock hr).inFrame)

theorem move_inv {s : State} (hr : s.Running) (h : s.Inv) {rem : Nat}
    (hrem : s.regs.cycle + rem < s.regs.nextActionCycle) :
    (s.withRegs fun r => { r with cycle := (r.cycle + rem) % Config.cyclesPerFrame }).Inv :=
  ActionFrame.inv ⟨rfl, rfl, rfl, rfl, rfl⟩ h fun _ =>
    ⟨(move_mod hr h hrem).trans_lt hrem, (h.clock hr).inFrame, (h.clock hr).legal⟩

theorem advanced_inv (n : Nat) {s : State} (h : s.Inv) : (advanced n s).Inv :=
  advanceLoop_induct State.Inv (fun _ => fire_inv) (fun _ _ hr hrem h => move_inv hr h hrem) _ _ h

/-- Under the invariant ADVANCE never schedules backward (R222). -/
theorem advanced_noF2 (n : Nat) {s : State} (h : s.Inv) (hs : NoF2 s) : NoF2 (advanced n s) := by
  refine (advanceLoop_induct (fun s => s.Inv ∧ NoF2 s) ?_ ?_ _ _ ⟨h, hs⟩).2
  · rintro u hr ⟨hu, -⟩
    exact ⟨fire_inv hr hu, (clockAfter_fire hr hu.params (hu.clock hr)).noF2⟩
  · rintro u rem hr hrem ⟨hu, hu2⟩
    exact ⟨move_inv hr hu hrem, hu2⟩

/-- ADVANCE moves the absolute time by its operand, unless it halts (R140, R141). -/
theorem advanced_time (n : Nat) (s : State) (h : s.Inv) (hr : (advanced n s).Running) :
    (advanced n s).regs.frame * 89342 + (advanced n s).regs.cycle =
      s.regs.frame * 89342 + s.regs.cycle + n := by
  induction n, s using advanced_induct with
  | halted n s c r hs =>
    rw [advanced_halted hs] at hr
    cases hs.symm.trans hr
  | last n s hs hlt =>
    rw [advanced_last hs hlt]
    simp only [withRegs_regs, move_mod hs h hlt]
    omega
  | fires n s hs hle ih =>
    rw [advanced_fire hs hle] at hr ⊢
    rw [ih (fire_inv hs h) hr, fire_time h.params (h.clock hs)]
    omega

/-! ### What DRAW schedules -/

/-- DRAW's Schedule after the frame is counted and presented and tiles were looked up. -/
theorem schedule_drawn {a : Action} {c : Nat} {s u : State}
    (hu : SameButCache (present (countFrame s.clearReply)) u) (hc : s.regs.cycle < c)
    (hc' : c ≤ Config.cyclesPerFrame) :
    schedule a c u = { s with
      regs := { s.regs with frame := s.regs.frame + 1, nextAction := a, nextActionCycle := c }
      tileCache := u.tileCache
      presented := s.presented ++ [⟨s.regs.frame + 1, s.grid, s.sprites⟩]
      reply := none } := by
  rw [schedule_ok (by rw [hu]; exact hc) hc', hu]
  rfl

/-- A predicted hit lies after the frame's start and, under R8, before VBLANK_START (R205). -/
theorem hit_bounds {s : State} {x y : Nat} (hp : s.params.Ok) (h : s.DoublyOpaque x y) :
    0 < y * 341 + x + s.params.sprite0CycleOffset ∧
      y * 341 + x + s.params.sprite0CycleOffset < s.params.vblankStartCycle := by
  obtain ⟨⟨⟨htop, -, hy⟩, ⟨-, -, hx⟩, -⟩, -⟩ := h
  have hstart := hp.1
  omega

/-! ### The obligations -/

/-- Settles O56: ADVANCE keeps the invariant pass by pass, RESET restores it, and every other command keeps
the components it speaks of. -/
theorem everyStepKeepsTheInvariant : Obligations.EveryStepKeepsTheInvariant := by
  intro s t hs h
  rcases step_keeps_cases h with ⟨n, u, hu, rfl⟩ | ⟨u, hu, rfl⟩ | ht
  · exact advanced_inv n (hu.inv hs)
  · exact resetCore_inv (hu.inv hs)
  · exact ht.inv hs

/-- Settles O31, by induction on ADVANCE's passes. -/
theorem advanceAccountsForEveryCycle : Obligations.AdvanceAccountsForEveryCycle := by
  intro n s h _
  exact ⟨_, exec_advance n s, advanced_time n s.clearReply ((clearReply_keeps s).inv h)⟩

/-- Settles O38: the scan's prediction, then Schedule accepts either cycle because the clock stands at 0 and
R8 orders the two. -/
theorem drawPredictsTheFirstHit : Obligations.DrawPredictsTheFirstHit := by
  intro s hr hp hc hg hb hs hy ht
  have hexec : exec .draw s = .next (actDraw s.clearReply) := perform_running hr actDraw
  obtain ⟨h, u, hdraw, hpred, hsame, hcache⟩ := actDraw_scan (s := s.clearReply) hr hg hb hs hy ht
  have hstart := vblankStart_le_frame hp
  rw [hexec, hdraw]
  cases h with
  | some c =>
    obtain ⟨x, y, hxy, hfirst, rfl⟩ := hpred
    obtain ⟨hpos, hlt⟩ := hit_bounds (s := s.clearReply) hp hxy
    rw [scheduleHit, schedule_drawn hsame (hc.trans_lt hpos) (hlt.le.trans hstart)]
    exact ⟨_, rfl, rfl, .inl ⟨x, y, hxy, rfl, rfl, hfirst⟩, hcache⟩
  | none =>
    have hparams : u.params = s.params := by rw [hsame]; rfl
    rw [scheduleHit, hparams, schedule_drawn hsame (hc.trans_lt (vblankStart_pos hp)) hstart]
    exact ⟨_, rfl, rfl, .inr ⟨hpred, rfl, rfl⟩, hcache⟩

/-- Settles O57: of the instructions a request decodes to only ADVANCE reaches Schedule, and under the
invariant each action's successor lies ahead (R8). -/
theorem schedulerHaltIsUnreachable : Obligations.SchedulerHaltIsUnreachable := by
  intro s t r hs hr h
  have hs2 : NoF2 s := fun r e => Run.noConfusion (hr.symm.trans e)
  rcases step_keeps_cases h with ⟨n, u, hu, rfl⟩ | ⟨u, -, rfl⟩ | ht
  · exact advanced_noF2 n (hu.inv hs) (hu.noF2 hs2) r
  · rw [resetCore_run]; exact Run.noConfusion
  · exact ht.noF2 hs2 r

/-- Settles O4, by the step's two equations. -/
theorem stepRunsTheOldestRequest : Obligations.StepRunsTheOldestRequest :=
  ⟨fun _ _ _ _ => step_decoded, fun _ => step_idle⟩

/-- Settles O8: power-up is a fresh core with the default parameters. -/
theorem powerUpState : Obligations.PowerUpState :=
  ⟨fresh_freshCore _ _ _ _, rfl, default_ok⟩

/-- Settles O55: power-up is a fresh core beside an empty mapper, under the default parameters. -/
theorem powerUpMeetsTheInvariant : Obligations.PowerUpMeetsTheInvariant :=
  fresh_inv _ _ default_ok initial_fits

end Sys2Proof.Machine

/-! # The state's statements: RESET, the way out of Halted, who writes what, the tile cache over
ROM, the scroll bytes -/

namespace Sys2Proof.Machine

open Sys2Proof

/-! ### What an instruction does to a Running machine -/

/-- An instruction's effect once the reply is cleared; RESET's in Halted too. -/
def bodyOf : Instr → State → State
  | .rd0 | .rd1 | .rd3 | .rd5 | .rd6 => readLatch
  | .rd2 => readStatus
  | .rd4 => readOam
  | .rd7 => readData
  | .wr0 d => fun s => writeCtrl d (setLatch d s)
  | .wr1 d => fun s => writeMask d (setLatch d s)
  | .wr2 d => setLatch d
  | .wr3 d => fun s => writeOamAddr d (setLatch d s)
  | .wr4 d => fun s => writeOamData d (setLatch d s)
  | .wr5 d => fun s => writeScroll d (setLatch d s)
  | .wr6 d => fun s => writeAddr d (setLatch d s)
  | .wr7 d => fun s => writeData d (setLatch d s)
  | .advance n => advanced n
  | .oamdma _ src => copyToOam src
  | .pollnmi => pollNmi
  | .reset => resetCore
  | .chrremap => fun s => s.halt .bankedChrInvalidation
  | .tileq half id => fun s => (tileFill half id s).answer (.pixels (tileValue s half id))
  | .vblankStart => actVblankStart
  | .vblankEnd => actVblankEnd
  | .draw => actDraw
  | .sprite0Hit => actSprite0Hit

/-- A well-formed instruction other than RESET runs its body, unless the core is Halted (R213). -/
theorem exec_eq_perform {i : Instr} (hi : i ≠ .reset) (hw : wellFormed i = true) (s : State) :
    exec i s = perform (bodyOf i) s := by
  cases i with
  | reset => exact absurd rfl hi
  | oamdma page src => exact if_pos hw
  | _ => rfl

/-- The only ill-formed instruction is an OAMDMA without its 256 bytes (log 8). -/
theorem exec_illFormed {i : Instr} (hw : wellFormed i = false) (s : State) :
    exec i s = .fault .malformedSource := by
  cases i with
  | oamdma page src => exact if_neg (ne_true_of_eq_false hw)
  | _ => cases hw

/-- Every next state an instruction can answer: its body's, or in Halted the state without a reply. -/
theorem exec_next_cases {i : Instr} {s t : State} (h : exec i s = .next t) :
    ((s.Running ∨ i = .reset) ∧ t = bodyOf i s.clearReply) ∨
      ((∃ c r, s.run = .halted c r) ∧ t = s.clearReply) := by
  by_cases hi : i = .reset
  · subst hi
    exact .inl ⟨.inr rfl, (Host.Outcome.next.inj h).symm⟩
  · cases hw : wellFormed i with
    | false => cases (exec_illFormed hw s).symm.trans h
    | true =>
      rw [exec_eq_perform hi hw] at h
      exact (perform_cases h).imp_left fun ⟨hr, ht⟩ => ⟨.inl hr, ht⟩

/-- A request that is no command has a next state only by its bad register index (R117, R223). -/
theorem rejectRequest_next {e : DecodeError} {s t : State} (h : rejectRequest e s = .next t) :
    ∃ index, badIndex index s = .next t := by
  cases e with
  | registerIndex index => exact ⟨index, h⟩
  | reservedTag tag => cases h
  | sourceLength length => cases h

/-- In Halted an instruction other than RESET keeps the halt (R213, R233). -/
theorem exec_halted_run {i : Instr} {s t : State} {c : HaltCause} {r : Regs}
    (hs : s.run = .halted c r) (h : exec i s = .next t) : t.run = .halted c r ∨ i = .reset := by
  rcases exec_next_cases h with ⟨hr | hi, -⟩ | ⟨-, rfl⟩
  · cases hr.symm.trans hs
  · exact .inr hi
  · exact .inl hs

/-- Everything WR0's effect can do (R159): F1, or the Control fields and the grid's validity. -/
theorem writeCtrl_cases (d : Byte) (s : State) :
    writeCtrl d s = s.halt .masterSlaveSet ∨ ∃ valid, writeCtrl d s =
      { s with gridValid := valid, regs := { s.regs with ctrl := ctrlOfByte s.regs.ctrl d } } := by
  rw [writeCtrl]
  split
  · exact .inl rfl
  · exact .inr ⟨_, rfl⟩

/-! ### Which instruction writes which memory -/

/-- OAM, palette, read buffer and mapper are each as they were, or instruction `i` is a writer of theirs
(R32, R36, R37, R43). -/
structure MemoriesWrittenBy (i : Instr) (s t : State) : Prop where
  oam : t.regs.oam = s.regs.oam ∨ (∃ d, i = .wr4 d) ∨ ∃ page src, i = .oamdma page src := by
    exact .inl rfl
  pal : t.regs.pal = s.regs.pal ∨ ∃ d, i = .wr7 d ∧ 0x3F00 ≤ s.regs.vramAddr.toNat := by
    exact .inl rfl
  readBuf : t.regs.readBuf = s.regs.readBuf ∨ i = .rd7 := by exact .inl rfl
  mapper : t.mapper = s.mapper ∨ ∃ d, i = .wr7 d ∧ s.regs.vramAddr.toNat < 0x3F00 := by
    exact .inl rfl

/-- The scheduler and the actions write none of the memories. -/
theorem ActionFrame.memories {s t : State} (h : ActionFrame s t) (i : Instr) :
    MemoriesWrittenBy i s t where
  oam := .inl h.oam
  pal := .inl h.pal
  readBuf := .inl h.readBuf
  mapper := .inl h.mapper

theorem writeCtrl_memories (i : Instr) (d : Byte) (s : State) :
    MemoriesWrittenBy i s (writeCtrl d (setLatch d s)) := by
  rcases writeCtrl_cases d (setLatch d s) with e | ⟨valid, e⟩ <;> rw [e] <;> exact {}

theorem writeData_memories (d : Byte) (s : State) :
    MemoriesWrittenBy (.wr7 d) s (writeData d (setLatch d s)) := by
  rw [writeData]
  rcases vramWrite_cases (setLatch d s).regs.vramAddr d (setLatch d s) with ⟨ha, e⟩ | ⟨ha, e⟩ <;>
    rw [e]
  · exact { pal := .inr ⟨d, rfl, ha⟩ }
  · exact { mapper := .inr ⟨d, rfl, ha⟩ }

theorem tileQuery_memories (i : Instr) (half : BitVec 1) (id : Byte) (s : State) :
    MemoriesWrittenBy i s ((tileFill half id s).answer (.pixels (tileValue s half id))) := by
  rw [tileFill_sameButCache half id s]
  exact {}

theorem bodyOf_memories {i : Instr} (hi : i ≠ .reset) (s : State) :
    MemoriesWrittenBy i s (bodyOf i s) := by
  cases i with
  | reset => exact absurd rfl hi
  | wr0 d => exact writeCtrl_memories _ d s
  | wr4 d => exact { oam := .inr (.inl ⟨d, rfl⟩) }
  | oamdma page src => exact { oam := .inr (.inr ⟨page, src, rfl⟩) }
  | wr7 d => exact writeData_memories d s
  | rd7 => exact { readBuf := .inr rfl }
  | tileq half id => exact tileQuery_memories _ half id s
  | advance n => exact (frame_advanceLoop _ n s).memories _
  | vblankStart => exact (frame_fire .vblankStart s).memories _
  | vblankEnd => exact (frame_fire .vblankEnd s).memories _
  | draw => exact (frame_fire .draw s).memories _
  | sprite0Hit => exact (frame_fire .sprite0Hit s).memories _
  | _ => exact {}

theorem exec_memories {i : Instr} {s t : State} (h : exec i s = .next t) (hi : i ≠ .reset) :
    MemoriesWrittenBy i s t := by
  rcases exec_next_cases h with ⟨-, rfl⟩ | ⟨-, rfl⟩
  · obtain ⟨hoam, hpal, hbuf, hmapper⟩ := bodyOf_memories hi s.clearReply
    exact ⟨hoam, hpal, hbuf, hmapper⟩
  · exact {}

/-! ### Faithful caches over ROM pattern tables -/

/-- The pattern tables are ROM and every filled tile is the decode of the present bytes. -/
abbrev RomFaithful (s : State) : Prop := s.mapper.PatternRom ∧ s.CacheFaithful

theorem cacheProperty_romFaithful : CacheProperty RomFaithful := by
  rintro s t hc hm ⟨hrom, hf⟩
  exact ⟨hm ▸ hrom, cacheProperty_faithful s t hc hm hf⟩

theorem tileFill_romFaithful (half : BitVec 1) (id : Byte) (s : State) (h : RomFaithful s) :
    RomFaithful (tileFill half id s) :=
  ⟨(tileFill_mapper half id s).symm ▸ h.1, tileFill_faithful h.2⟩

theorem vramWrite_romFaithful (a : VAddr) (v : Byte) {s : State} (h : RomFaithful s) :
    RomFaithful (vramWrite a v s) := by
  rcases vramWrite_cases a v s with ⟨-, e⟩ | ⟨-, e⟩ <;> rw [e]
  · exact h
  · exact ⟨ppuWrite_patternRom h.1 a v, fun half id px hpx =>
      (h.2 half id px hpx).trans (fetchTile_write h.1 a v half id).symm⟩

theorem writeCtrl_romFaithful (d : Byte) {s : State} (h : RomFaithful s) :
    RomFaithful (writeCtrl d s) := by
  rcases writeCtrl_cases d s with e | ⟨valid, e⟩ <;> rw [e] <;> exact h

/-- An empty cache is faithful. -/
theorem State.FreshCore.faithful {s : State} (h : s.FreshCore) : s.CacheFaithful := by
  intro half id px hpx
  cases (h.tileCache (tileKey half id)).symm.trans hpx

theorem resetCore_freshCore (s : State) : (resetCore s).FreshCore := fresh_freshCore _ _ _ _

theorem bodyOf_romFaithful (i : Instr) {s : State} (h : RomFaithful s) : RomFaithful (bodyOf i s) := by
  have hfire : ∀ a, RomFaithful (fire a s) := fun a =>
    fire_keeps_cache cacheProperty_romFaithful tileFill_romFaithful a h
  cases i with
  | reset => exact ⟨h.1, (resetCore_freshCore s).faithful⟩
  | wr0 d => exact writeCtrl_romFaithful d (s := setLatch d s) h
  | wr7 d => exact vramWrite_romFaithful _ d (s := setLatch d s) h
  | tileq half id => exact tileFill_romFaithful half id s h
  | advance n => exact advanced_keeps_cache cacheProperty_romFaithful tileFill_romFaithful n h
  | vblankStart => exact hfire .vblankStart
  | vblankEnd => exact hfire .vblankEnd
  | draw => exact hfire .draw
  | sprite0Hit => exact hfire .sprite0Hit
  | _ => exact h

theorem exec_romFaithful {i : Instr} {s t : State} (hs : RomFaithful s) (h : exec i s = .next t) :
    RomFaithful t := by
  rcases exec_next_cases h with ⟨-, rfl⟩ | ⟨-, rfl⟩
  · exact bodyOf_romFaithful i (s := s.clearReply) hs
  · exact hs

theorem badIndex_romFaithful {index : Nat} {s t : State} (hs : RomFaithful s)
    (h : badIndex index s = .next t) : RomFaithful t := by
  rcases perform_cases h with ⟨-, rfl⟩ | ⟨-, rfl⟩ <;> exact hs

/-! ### The latch under a bus write -/

theorem writeCtrl_latch (d : Byte) (s : State) :
    (writeCtrl d s).regs.latch = s.regs.latch ∧ (writeCtrl d s).reply = s.reply := by
  rcases writeCtrl_cases d s with e | ⟨valid, e⟩ <;> rw [e] <;> exact ⟨rfl, rfl⟩

theorem writeData_latch (d : Byte) (s : State) :
    (writeData d s).regs.latch = s.regs.latch ∧ (writeData d s).reply = s.reply := by
  rw [writeData]
  rcases vramWrite_cases s.regs.vramAddr d s with ⟨-, e⟩ | ⟨-, e⟩ <;> rw [e] <;> exact ⟨rfl, rfl⟩

/-- A bus write sets the latch, whatever its register's effect, and returns nothing (R150). -/
theorem bodyOf_busWrite_latch {i : Instr} {d : Byte} (hd : busWriteData i = some d) (s : State) :
    (bodyOf i s).regs.latch = d ∧ (bodyOf i s).reply = s.reply := by
  cases i with
  | wr0 b => cases hd; exact writeCtrl_latch d (setLatch d s)
  | wr7 b => cases hd; exact writeData_latch d (setLatch d s)
  | wr1 b | wr2 b | wr3 b | wr4 b | wr5 b | wr6 b => cases hd; exact ⟨rfl, rfl⟩
  | _ => cases hd

theorem busWrite_wellFormed {i : Instr} {d : Byte} (hd : busWriteData i = some d) :
    i ≠ .reset ∧ wellFormed i = true := by
  cases i with
  | oamdma page src => cases hd
  | reset => cases hd
  | _ => exact ⟨Instr.noConfusion, rfl⟩

/-! ### The scroll bytes (R34, D18) -/

/-- Replacing the scroll bytes before `f` or after it is the same: `f` does not read them. -/
abbrev ScrollBlind (x y : Byte) (f : State → State) : Prop :=
  ∀ s : State, f (s.withScroll x y) = (f s).withScroll x y

section ScrollBlind

variable {x y : Byte}

theorem ScrollBlind.comp {f g : State → State} (hf : ScrollBlind x y f) (hg : ScrollBlind x y g) :
    ScrollBlind x y fun s => f (g s) := fun s =>
  (congrArg f (hg s)).trans (hf (g s))

theorem withScroll_running {s : State} (h : s.run = .running) :
    (s.withScroll x y).run = .running := by
  simp only [State.withScroll, h]

theorem withScroll_halted {s : State} {c : HaltCause} {r : Regs} (h : s.run = .halted c r) :
    (s.withScroll x y).run = .halted c { r with scrollX := x, scrollY := y } := by
  simp only [State.withScroll, h]

/-- Whether a rule goes on after a halt does not depend on the scroll bytes. -/
theorem andThen_withScroll {f : State → State} (hf : ScrollBlind x y f) (s : State) :
    (s.withScroll x y).andThen f = (s.andThen f).withScroll x y := by
  cases hr : s.run with
  | running => rw [andThen_running hr, andThen_running (withScroll_running hr), hf]
  | halted c r => rw [andThen_halted hr, andThen_halted (withScroll_halted hr)]

theorem perform_withScroll {body : State → State} (hb : ScrollBlind x y body) (s : State) :
    perform body (s.withScroll x y) = onNext (State.withScroll x y) (perform body s) :=
  congrArg Host.Outcome.next (andThen_withScroll hb s.clearReply)

theorem writeCtrl_blind (d : Byte) : ScrollBlind x y (writeCtrl d) := fun s => by
  rw [writeCtrl, writeCtrl, apply_ite (State.withScroll x y)]
  rfl

theorem vramWrite_blind (a : VAddr) (v : Byte) : ScrollBlind x y (vramWrite a v) := fun s => by
  rw [vramWrite, vramWrite, apply_ite (State.withScroll x y)]
  rfl

theorem writeData_blind (d : Byte) : ScrollBlind x y (writeData d) := fun s => by
  rw [writeData, writeData]
  change State.withRegs (vramWrite s.regs.vramAddr d (s.withScroll x y)) _ = _
  rw [vramWrite_blind]
  rfl

theorem tileFill_blind (half : BitVec 1) (id : Byte) : ScrollBlind x y (tileFill half id) :=
  fun s => by
    simp only [tileFill, State.withScroll]
    cases s.tileCache[tileKey half id] <;> rfl

theorem schedule_blind (a : Action) (c : Nat) : ScrollBlind x y (schedule a c) := fun s => by
  rw [schedule, schedule, apply_ite (State.withScroll x y)]
  rfl

theorem rebuildGrid_blind : ScrollBlind x y rebuildGrid := fun s => by
  rw [rebuildGrid, rebuildGrid, apply_ite (State.withScroll x y)]
  rfl

theorem decodeSprite_blind (k : Fin 64) : ScrollBlind x y fun s => decodeSprite s k := fun s => by
  simp only [decodeSprite]
  rw [tileFill_blind]
  rfl

theorem decodeSprites_blind : ScrollBlind x y decodeSprites := by
  suffices ∀ ks : List (Fin 64), ScrollBlind x y fun s => ks.foldl decodeSprite s from this _
  intro ks
  induction ks with
  | nil => exact fun _ => rfl
  | cons k rest ih => exact ih.comp (decodeSprite_blind k)

/-- Predict's scan finds the same cycle and fills the same tiles. -/
theorem predictScan_withScroll (t : Tile) (ks : List Nat) (s : State) :
    predictScan t ks (s.withScroll x y) =
      Prod.map id (State.withScroll x y) (predictScan t ks s) := by
  induction ks generalizing s with
  | nil => rfl
  | cons k rest ih =>
    simp only [predictScan, apply_ite (Prod.map id (State.withScroll x y)), Prod.map_apply,
      ← ih, ← tileFill_blind _ _ _]
    rfl

theorem predict_withScroll (s : State) :
    predict (s.withScroll x y) = Prod.map id (State.withScroll x y) (predict s) := by
  simp only [predict, apply_ite (Prod.map id (State.withScroll x y)), Prod.map_apply,
    ← predictScan_withScroll, ← tileFill_blind _ _ _]
  rfl

theorem refreshGrid_blind : ScrollBlind x y refreshGrid := fun s => by
  rw [refreshGrid, refreshGrid, apply_ite (State.withScroll x y), ← rebuildGrid_blind]
  rfl

theorem finishDraw_withScroll (p : Option Nat × State) :
    finishDraw (Prod.map id (State.withScroll x y) p) = (finishDraw p).withScroll x y := by
  refine andThen_withScroll (f := scheduleHit p.1) ?_ p.2
  cases p.1 with
  | none => exact fun s => schedule_blind _ s.params.vblankStartCycle s
  | some c => exact schedule_blind _ c

/-- No action reads the scroll bytes (R133 to R136, R206). -/
theorem fire_blind (a : Action) : ScrollBlind x y (fire a) := fun s => by
  cases a with
  | vblankStart =>
    rw [fire, actVblankStart, actVblankStart, ← schedule_blind]
    rfl
  | vblankEnd =>
    rw [fire, actVblankEnd, actVblankEnd, rebuildGrid_blind]
    refine andThen_withScroll (fun u => ?_) _
    rw [decodeSprites_blind, ← schedule_blind]
    generalize decodeSprites u = v
    rfl
  | draw =>
    rw [fire, actDraw, actDraw]
    refine Eq.trans (congrArg (State.andThen · _) (refreshGrid_blind (countFrame s))) ?_
    refine andThen_withScroll (fun u => ?_) _
    exact (congrArg finishDraw (predict_withScroll (present u))).trans (finishDraw_withScroll _)
  | sprite0Hit =>
    rw [fire, actSprite0Hit, actSprite0Hit, ← schedule_blind]
    rfl

theorem advanceLoop_blind (fuel rem : Nat) : ScrollBlind x y (advanceLoop fuel rem) := by
  induction fuel generalizing rem with
  | zero => exact fun _ => rfl
  | succ fuel ih =>
    refine andThen_withScroll fun s => ?_
    rw [apply_ite (State.withScroll x y), ← ih, ← fire_blind]
    rfl

/-- No instruction but WR5 and RESET reads or writes the scroll bytes. -/
theorem bodyOf_blind {i : Instr} (hscroll : ∀ d, i ≠ .wr5 d) (hreset : i ≠ .reset) :
    ScrollBlind x y (bodyOf i) := by
  cases i with
  | reset => exact absurd rfl hreset
  | wr5 d => exact absurd rfl (hscroll d)
  | wr0 d => exact fun s => writeCtrl_blind d (setLatch d s)
  | wr7 d => exact fun s => writeData_blind d (setLatch d s)
  | tileq half id =>
    exact fun s => congrArg (State.answer · (.pixels (tileValue s half id))) (tileFill_blind half id s)
  | advance n => exact fun s => advanceLoop_blind (advanceFuel n s) n s
  | vblankStart => exact fire_blind .vblankStart
  | vblankEnd => exact fire_blind .vblankEnd
  | draw => exact fire_blind .draw
  | sprite0Hit => exact fire_blind .sprite0Hit
  | _ => exact fun _ => rfl

end ScrollBlind

/-! ### The obligations -/

/-- Settles O58: fills decode the present bytes, a Data write reaches no pattern byte of a ROM, and nothing
else changes the cache or the mapper but RESET, which empties the cache. -/
theorem romTilesStayFaithful : Obligations.RomTilesStayFaithful := by
  intro s t hrom hf h
  have hs : RomFaithful s := ⟨hrom, hf⟩
  rcases step_cases s with ⟨-, e⟩ | ⟨q, rest, i, -, -, e⟩ | ⟨q, rest, err, -, -, e⟩
  · obtain rfl := Host.Outcome.next.inj (e.symm.trans h)
    exact hs
  · exact exec_romFaithful (s := { s with requests := rest }) hs (e.symm.trans h)
  · obtain ⟨index, hbad⟩ := rejectRequest_next (e.symm.trans h)
    exact badIndex_romFaithful (s := { s with requests := rest }) hs hbad

/-- Settles O14: no register's effect touches the latch, a halting Control write's included. -/
theorem everyBusWriteSetsTheLatch : Obligations.EveryBusWriteSetsTheLatch := by
  intro s i d hr hd
  obtain ⟨hi, hw⟩ := busWrite_wellFormed hd
  exact ⟨bodyOf i s.clearReply, (exec_eq_perform hi hw s).trans (perform_running hr _),
    bodyOf_busWrite_latch hd s.clearReply⟩

/-- Settles O20, by read after write in a canonical memory. -/
theorem oamDataWriteStoresAndIncrements : Obligations.OamDataWriteStoresAndIncrements := by
  intro s d hr hwf
  exact ⟨writeOamData d (setLatch d s.clearReply), perform_running hr _, rfl, BitVec.toNat_add _ _,
    read_write_same hwf _ d, fun _ ha => read_write_other hwf ha d⟩

/-- Settles O49: in Halted every instruction but RESET, and every bad register index, keeps the halt. -/
theorem onlyResetLeavesHalted : Obligations.OnlyResetLeavesHalted := by
  intro s t c r hs h
  rcases step_cases s with ⟨-, e⟩ | ⟨q, rest, i, hq, hi, e⟩ | ⟨q, rest, err, -, -, e⟩
  · obtain rfl := Host.Outcome.next.inj (e.symm.trans h)
    exact .inl hs
  · have hexec := e.symm.trans h
    rcases exec_halted_run (s := { s with requests := rest }) hs hexec with hrun | rfl
    · exact .inl hrun
    · obtain rfl := Host.Outcome.next.inj hexec
      exact .inr ⟨q, rest, hq, hi, rfl⟩
  · obtain ⟨index, hbad⟩ := rejectRequest_next (e.symm.trans h)
    rw [badIndex, perform_halted (s := { s with requests := rest }) hs] at hbad
    obtain rfl := Host.Outcome.next.inj hbad
    exact .inl hs

/-- Settles O50: RESET leaves the mapper alone, and of the other instructions only WR7 writes it. -/
theorem mapperChangesOnlyByDataWrite : Obligations.MapperChangesOnlyByDataWrite := by
  intro i s t h hne
  by_cases hi : i = .reset
  · subst hi
    obtain rfl := Host.Outcome.next.inj h
    exact absurd rfl hne
  · exact (exec_memories h hi).mapper.resolve_left hne

/-- Settles O51, by the writers of each memory. -/
theorem memoriesHaveTheirWriters : Obligations.MemoriesHaveTheirWriters := by
  intro i s t h hi
  obtain ⟨hoam, hpal, hbuf, -⟩ := exec_memories h hi
  exact ⟨hoam.resolve_left, hpal.resolve_left, hbuf.resolve_left⟩

/-- Settles O59: an empty cache is faithful, and in a faithful state Tile returns the decode. -/
theorem faithfulCacheIsTransparent : Obligations.FaithfulCacheIsTransparent := by
  refine ⟨fun _ => State.FreshCore.faithful, fun s half id hf hr => ?_⟩
  refine ⟨_, tileValue s half id, perform_running hr _, rfl, ?_⟩
  rw [tileValue_faithful hf]
  exact fetchTile_shows s.mapper half id

/-- Settles O9: RESET's core is a fresh one beside the same collaborators. -/
theorem resetMakesAFreshCore : Obligations.ResetMakesAFreshCore := fun s =>
  ⟨resetCore s, rfl, resetCore_freshCore s, rfl, rfl, rfl, rfl, rfl⟩

/-- Settles O54: the body of every instruction but WR5 and RESET is blind to the scroll bytes, and an
ill-formed OAMDMA faults whatever they are. -/
theorem scrollBytesInfluenceNothing : Obligations.ScrollBytesInfluenceNothing := by
  intro i s x y hscroll hreset
  cases hw : wellFormed i with
  | false =>
    rw [exec_illFormed hw, exec_illFormed hw]
    rfl
  | true =>
    rw [exec_eq_perform hreset hw, exec_eq_perform hreset hw]
    exact perform_withScroll (bodyOf_blind hscroll hreset) s

end Sys2Proof.Machine

/-! # The memory statements: palette cells, the Data port, the reference mapper, OAM-DMA -/

namespace Sys2Proof.Machine

open Sys2Proof

/-! ### Reads of the palette (R75, R76) -/

/-- PalIndex takes only the low five bits of an address (R75). -/
theorem palIndex_eq_of_mod {a b : VAddr} (h : a.toNat % 32 = b.toNat % 32) :
    palIndex a = palIndex b := by
  apply BitVec.eq_of_toNat_eq
  rw [palIndex_toNat, palIndex_toNat]
  have hbit : a.toNat / 16 % 2 = b.toNat / 16 % 2 := by omega
  have hlow : a.toNat % 4 = b.toNat % 4 := by omega
  have hnibble : a.toNat % 16 = b.toNat % 16 := by omega
  rw [hbit, hlow, hnibble, h]

/-- The addresses of the aliased pairs reach the same cell (R75). -/
theorem palIndex_alias {a b : VAddr} {k : Nat} (hk : k < 4) (ha : a.toNat = 0x3F10 + 4 * k)
    (hb : b.toNat = 0x3F00 + 4 * k) : palIndex a = palIndex b := by
  apply BitVec.eq_of_toNat_eq
  rw [palIndex_toNat, palIndex_toNat, if_pos (by omega), if_neg (by omega)]
  omega

theorem vramRead_palette (s : State) {a : VAddr} (h : 0x3F00 ≤ a.toNat) :
    vramRead s a = palRead s.regs.pal a :=
  if_pos ((inPalette_iff a).mpr h)

/-- Palette addresses of the same cell read alike (R75, R76). -/
theorem vramRead_eq_of_palIndex_eq (s : State) {a b : VAddr} (ha : 0x3F00 ≤ a.toNat)
    (hb : 0x3F00 ≤ b.toNat) (h : palIndex a = palIndex b) : vramRead s a = vramRead s b := by
  rw [vramRead_palette s ha, vramRead_palette s hb, palRead, palRead, h]

/-- A palette read after a write to the cell of `a`: that cell alone changes (R75). -/
theorem palRead_write {pal : Memory} (h : Memory.wf pal = true) (a b : VAddr) (v : Byte) :
    palRead (Memory.write pal (palIndex a).toNat v) b =
      if palIndex b = palIndex a then v else palRead pal b := by
  simp only [palRead, read_write h, BitVec.toNat_inj]

/-! ### The Data port (R158, R166) -/

theorem dataValue_low {s : State} (h : s.regs.vramAddr.toNat < 0x3F00) :
    dataValue s = s.regs.readBuf :=
  if_neg (by rw [inPalette_iff]; omega)

theorem dataValue_palette {s : State} (h : 0x3F00 ≤ s.regs.vramAddr.toNat) :
    dataValue s = vramRead s s.regs.vramAddr :=
  (if_pos ((inPalette_iff _).mpr h)).trans (vramRead_palette s h).symm

/-- Everything WR7's effect can do (R166): a palette cell or the mapper takes the byte, and the pointer
advances. -/
theorem writeData_cases (d : Byte) (s : State) :
    (0x3F00 ≤ s.regs.vramAddr.toNat ∧ writeData d s =
        { s with regs := { s.regs with
            pal := Memory.write s.regs.pal (palIndex s.regs.vramAddr).toNat d
            vramAddr := s.regs.vramAddr + vramInc s.regs.ctrl } }) ∨
      (s.regs.vramAddr.toNat < 0x3F00 ∧ writeData d s =
        { s with
          regs := { s.regs with vramAddr := s.regs.vramAddr + vramInc s.regs.ctrl }
          mapper := ppuWrite s.mapper s.regs.vramAddr d }) := by
  rw [writeData]
  rcases vramWrite_cases s.regs.vramAddr d s with ⟨ha, e⟩ | ⟨ha, e⟩ <;> rw [e]
  · exact .inl ⟨ha, rfl⟩
  · exact .inr ⟨ha, rfl⟩

/-! ### The reference mapper, read after write (R79) -/

theorem refNROM_write_rom {n : RefNROM} {a : VAddr} (ha : a.toNat < 0x2000)
    (hrom : n.chrWritable = false) (d : Byte) : n.write a d = n := by
  rw [RefNROM.write, if_pos ha, if_neg (by simp [hrom])]

theorem refNROM_read_write_ram {n : RefNROM} (hwf : Memory.wf n.chr = true) {a : VAddr}
    (ha : a.toNat < 0x2000) (hram : n.chrWritable = true) (b : VAddr) (d : Byte) :
    (n.write a d).read b = if b = a then d else n.read b := by
  rw [RefNROM.write, if_pos ha, if_pos hram]
  by_cases hb : b.toNat < 0x2000
  · simp only [RefNROM.read, if_pos hb, read_write hwf, BitVec.toNat_inj]
  · have hne : b ≠ a := by rintro rfl; exact hb ha
    simp only [RefNROM.read, if_neg hb, if_neg hne]

theorem refNROM_read_write_nametable {n : RefNROM} (hwf : Memory.wf n.nt = true) {a : VAddr}
    (ha : 0x2000 ≤ a.toNat) (b : VAddr) (d : Byte) :
    (n.write a d).read b =
      if 0x2000 ≤ b.toNat ∧ nromNtIndex n.mirroring b.toNat = nromNtIndex n.mirroring a.toNat
      then d else n.read b := by
  rw [RefNROM.write, if_neg (Nat.not_lt.mpr ha)]
  by_cases hb : b.toNat < 0x2000
  · rw [if_neg fun h => Nat.not_lt.mpr h.1 hb]
    simp only [RefNROM.read, if_pos hb]
  · simp only [RefNROM.read, if_neg hb, read_write hwf, Nat.not_lt.mp hb, true_and]

/-! ### OAM-data writes in a row (R163) -/

/-- OAM-data writes run one after another copy their bytes as OAM-DMA does, and move `oamAddr` by their
number modulo 256 (R163, R210). -/
theorem execAll_wr4 (src : List Byte) {s : State} (hr : s.Running) :
    ∃ u, execAll (src.map .wr4) s = .next u ∧
      u.regs.oam = dmaCopy src s.regs.oamAddr s.regs.oam ∧
      u.regs.oamAddr = s.regs.oamAddr + BitVec.ofNat 8 src.length := by
  induction src generalizing s with
  | nil => exact ⟨s, rfl, rfl, (BitVec.add_zero _).symm⟩
  | cons d rest ih =>
    have hstep : exec (.wr4 d) s = .next (writeOamData d (setLatch d s.clearReply)) :=
      perform_running hr _
    obtain ⟨u, hu, hoam, haddr⟩ := ih (s := writeOamData d (setLatch d s.clearReply)) hr
    refine ⟨u, ?_, hoam, ?_⟩
    · rw [List.map_cons, execAll, hstep]
      exact hu
    · rw [haddr, List.length_cons, Nat.add_comm, BitVec.ofNat_add, ← BitVec.add_assoc]
      rfl

/-! ### The obligations -/

/-- Settles O13: the value and the refill by the pointer's range. -/
theorem dataReadIsOneBehind : Obligations.DataReadIsOneBehind := by
  intro s hr a
  refine ⟨readData s.clearReply, dataValue s, perform_running hr _, rfl, add_vramInc_toNat _ _,
    fun ha => ⟨dataValue_low ha, ?_⟩, fun ha => ⟨dataValue_palette ha, ?_⟩⟩
  · exact congrArg (ppuRead s.mapper) (refillAddr_low ha)
  · exact congrArg (ppuRead s.mapper) (refillAddr_palette ha)

/-- Settles O25: WR7's two effects, and read after write in the palette. -/
theorem dataWriteStoresThrough : Obligations.DataWriteStoresThrough := by
  intro s d hr hwf a
  refine ⟨_, perform_running hr _, ?_⟩
  rcases writeData_cases d (setLatch d s.clearReply) with ⟨ha, e⟩ | ⟨ha, e⟩ <;> rw [e]
  · refine ⟨rfl, add_vramInc_toNat _ _, fun hlow => absurd hlow (Nat.not_lt.mpr ha),
      fun _ => ⟨rfl, ?_, fun b hb hne => ?_⟩⟩
    · exact (vramRead_palette _ ha).trans ((palRead_write hwf a a d).trans (if_pos rfl))
    · rw [vramRead_palette _ hb, vramRead_palette _ hb]
      exact (palRead_write hwf a b d).trans (if_neg hne)
  · exact ⟨rfl, add_vramInc_toNat _ _, fun _ => ⟨rfl, rfl⟩,
      fun hpal => absurd ha (Nat.not_lt.mpr hpal)⟩

/-- Settles O26: the reference mapper's three kinds of write. -/
theorem referenceMapperStores : Obligations.ReferenceMapperStores := by
  intro n a b d hchr hnt _
  refine ⟨fun ha hrom => ?_, fun ha hram => refNROM_read_write_ram hchr ha hram b d,
    fun ha => ⟨?_, fun hb => ?_⟩⟩
  · rw [ppuWrite, refNROM_write_rom ha hrom]
  · exact (refNROM_read_write_nametable hnt ha a d).trans (if_pos ⟨ha, rfl⟩)
  · refine (refNROM_read_write_nametable hnt ha b d).trans (if_neg ?_)
    rintro ⟨hge, heq⟩
    exact hb.elim (Nat.not_lt.mpr hge) fun hne => hne heq

/-- Settles O27: PalIndex as arithmetic, and equal cells read alike. -/
theorem paletteIndexAliases : Obligations.PaletteIndexAliases := by
  refine ⟨fun a _ => palIndex_toNat a,
    fun s a b ha hb h => vramRead_eq_of_palIndex_eq s ha hb (palIndex_eq_of_mod h), fun s k hk => ?_⟩
  have hupper : (BitVec.ofNat 14 (0x3F10 + 4 * k)).toNat = 0x3F10 + 4 * k :=
    (BitVec.toNat_ofNat _ _).trans (Nat.mod_eq_of_lt (by omega))
  have hlower : (BitVec.ofNat 14 (0x3F00 + 4 * k)).toNat = 0x3F00 + 4 * k :=
    (BitVec.toNat_ofNat _ _).trans (Nat.mod_eq_of_lt (by omega))
  exact vramRead_eq_of_palIndex_eq s (by omega) (by omega) (palIndex_alias hk hupper hlower)

/-- Settles O42: both copy the same bytes from the same cell on, and 256 increments bring `oamAddr` back. -/
theorem oamDmaEqualsDataWrites : Obligations.OamDmaEqualsDataWrites := by
  intro s page src hr hlen
  have hwf : wellFormed (.oamdma page src) = true := beq_iff_eq.mpr hlen
  have hdma : exec (.oamdma page src) s = .next (copyToOam src s.clearReply) :=
    (exec_eq_perform Instr.noConfusion hwf s).trans (perform_running hr _)
  obtain ⟨u, hu, hoam, haddr⟩ := execAll_wr4 src hr
  refine ⟨_, u, hdma, hu, hoam, ?_, rfl⟩
  rw [haddr, hlen]
  exact BitVec.add_zero _

end Sys2Proof.Machine

/-! # The encoding statements: the decoder and the encoder, refusals, the register bytes, the
two-write pairs, VBLANK_END, OAM-DMA, the tile query -/

namespace Sys2Proof.Machine

open Sys2Proof

/-! ### The round trip (R101 to R103) -/

/-- The model's law of each constructor, put together. -/
theorem decode_encode (i : Instr) : Laws.RoundTrip.Statement i := by
  cases i with
  | rd0 => exact Laws.RoundTrip.rd0
  | rd1 => exact Laws.RoundTrip.rd1
  | rd2 => exact Laws.RoundTrip.rd2
  | rd3 => exact Laws.RoundTrip.rd3
  | rd4 => exact Laws.RoundTrip.rd4
  | rd5 => exact Laws.RoundTrip.rd5
  | rd6 => exact Laws.RoundTrip.rd6
  | rd7 => exact Laws.RoundTrip.rd7
  | wr0 d => exact Laws.RoundTrip.wr0 d
  | wr1 d => exact Laws.RoundTrip.wr1 d
  | wr2 d => exact Laws.RoundTrip.wr2 d
  | wr3 d => exact Laws.RoundTrip.wr3 d
  | wr4 d => exact Laws.RoundTrip.wr4 d
  | wr5 d => exact Laws.RoundTrip.wr5 d
  | wr6 d => exact Laws.RoundTrip.wr6 d
  | wr7 d => exact Laws.RoundTrip.wr7 d
  | advance n => exact Laws.RoundTrip.advance n
  | oamdma page src => exact Laws.RoundTrip.oamdma page src
  | pollnmi => exact Laws.RoundTrip.pollnmi
  | reset => exact Laws.RoundTrip.reset
  | chrremap => exact Laws.RoundTrip.chrremap
  | tileq half id => exact Laws.RoundTrip.tileq half id
  | vblankStart => exact Laws.RoundTrip.vblankStart
  | vblankEnd => exact Laws.RoundTrip.vblankEnd
  | draw => exact Laws.RoundTrip.draw
  | sprite0Hit => exact Laws.RoundTrip.sprite0Hit

/-- R118's OAMDMA word, host page 2, beside any 256 bytes. -/
theorem decode_oamdma_page2 {src : List Byte} (hs : src.length = 256) :
    decode (.command ⟨0x2002#16, 0, src⟩) = .ok (.oamdma 2#8 src) :=
  decode_encode (.oamdma 2#8 src) (beq_iff_eq.mpr hs)

/-! ### The decoder by numeric fields (R101, R102) -/

theorem dataOf_eq_ofNat (w : CmdWord) : dataOf w = BitVec.ofNat 8 (w.toNat % 256) := by
  apply BitVec.eq_of_toNat_eq
  rw [dataOf_toNat, BitVec.toNat_ofNat, Nat.mod_mod]

theorem halfOf_eq_ofNat (w : CmdWord) : halfOf w = BitVec.ofNat 1 (w.toNat / 256 % 2) := by
  apply BitVec.eq_of_toNat_eq
  rw [halfOf_toNat, BitVec.toNat_ofNat, Nat.mod_mod]

theorem rwOf_eq_zero_iff (w : CmdWord) : rwOf w = 0#1 ↔ w.toNat / 2048 % 2 = 0 := by
  rw [← rwOf_toNat, ← BitVec.toNat_inj]
  rfl

/-- The register reads in the order of their indices (R102). -/
theorem busReadInstr_eq_getD {k : Nat} (hk : k < 8) :
    busReadInstr k = .ok ([Instr.rd0, .rd1, .rd2, .rd3, .rd4, .rd5, .rd6, .rd7].getD k .rd0) := by
  interval_cases k <;> rfl

/-- The register writes in the order of their indices (R102). -/
theorem busWriteInstr_eq_getD {k : Nat} (hk : k < 8) (d : Byte) :
    busWriteInstr k d = .ok ([Instr.wr0 d, .wr1 d, .wr2 d, .wr3 d, .wr4 d, .wr5 d, .wr6 d,
      .wr7 d].getD k (.wr0 d)) := by
  interval_cases k <;> rfl

section Tags

variable {c : Command}

theorem decodeCommand_read (ht : c.word.toNat / 4096 = 0) (hrw : c.word.toNat / 2048 % 2 = 0) :
    decodeCommand c = busReadInstr (c.word.toNat / 256 % 8) := by
  simp only [decodeCommand, tagOf_toNat, ht, if_pos ((rwOf_eq_zero_iff _).mpr hrw), regOf_toNat]

theorem decodeCommand_write (ht : c.word.toNat / 4096 = 0) (hrw : c.word.toNat / 2048 % 2 = 1) :
    decodeCommand c =
      busWriteInstr (c.word.toNat / 256 % 8) (BitVec.ofNat 8 (c.word.toNat % 256)) := by
  have hne : ¬ rwOf c.word = 0#1 := by rw [rwOf_eq_zero_iff, hrw]; exact Nat.one_ne_zero
  simp only [decodeCommand, tagOf_toNat, ht, if_neg hne, regOf_toNat, dataOf_eq_ofNat]

theorem decodeCommand_advance (ht : c.word.toNat / 4096 = 1) :
    decodeCommand c = .ok (.advance c.n) := by
  simp only [decodeCommand, tagOf_toNat, ht]

theorem decodeCommand_oamdma (ht : c.word.toNat / 4096 = 2) (hs : c.src.length = 256) :
    decodeCommand c = .ok (.oamdma (BitVec.ofNat 8 (c.word.toNat % 256)) c.src) := by
  have hok : sourceOk c.src = true := beq_iff_eq.mpr hs
  simp only [decodeCommand, tagOf_toNat, ht, if_pos hok, dataOf_eq_ofNat]

theorem decodeCommand_pollnmi (ht : c.word.toNat / 4096 = 3) : decodeCommand c = .ok .pollnmi := by
  simp only [decodeCommand, tagOf_toNat, ht]

theorem decodeCommand_reset (ht : c.word.toNat / 4096 = 4) : decodeCommand c = .ok .reset := by
  simp only [decodeCommand, tagOf_toNat, ht]

theorem decodeCommand_chrremap (ht : c.word.toNat / 4096 = 5) :
    decodeCommand c = .ok .chrremap := by
  simp only [decodeCommand, tagOf_toNat, ht]

theorem decodeCommand_tileq (ht : c.word.toNat / 4096 = 6) :
    decodeCommand c = .ok (.tileq (BitVec.ofNat 1 (c.word.toNat / 256 % 2))
      (BitVec.ofNat 8 (c.word.toNat % 256))) := by
  simp only [decodeCommand, tagOf_toNat, ht, halfOf_eq_ofNat, dataOf_eq_ofNat]

end Tags

/-- A step with a waiting request that does not decode rejects it (R117). -/
theorem step_rejected {s : State} {q : Request} {rest : List Request} {e : DecodeError}
    (hq : s.requests = q :: rest) (he : decodeRequest q = .error e) :
    step s = rejectRequest e { s with requests := rest } := by
  simp only [step, hq, runRequest, he]

/-! ### ADVANCE exactly to the due cycle (R130, R131) -/

/-- An ADVANCE that ends on the outstanding action's cycle fires that action and stops there. -/
theorem advanced_exactly_due {n : Nat} {s : State} (hr : s.Running)
    (hn : s.regs.cycle + n = s.regs.nextActionCycle) :
    advanced n s = fire s.regs.nextAction (arrive s) := by
  rw [advanced_fire hr hn.ge, hn, Nat.sub_self]
  refine advanced_zero (ahead_fire _ _) ?_
  rw [fire_cycle]
  exact Nat.mod_lt _ (by decide)

/-! ### The Status, Control and Mask bytes (R104 to R106) -/

theorem statusByte_lt_of_vblank_clear (l : Byte) {f : Stat} (h : f.vblank = false) :
    (statusByte l f).toNat < 128 := by
  have hover := Bool.toNat_le f.overflow
  have hhit := Bool.toNat_le f.spr0Hit
  have hblank : f.vblank.toNat = 0 := by rw [h]; rfl
  rw [statusByte_toNat]
  omega

/-- A Status read forms its value before the clear (R153). -/
theorem exec_rd2 {s : State} (hr : s.Running) :
    exec .rd2 s = .next { s with
      regs := { s.regs with
        stat := { s.regs.stat with vblank := false }, nextScroll := false, nextAddr := false }
      reply := some (.byte (statusByte s.regs.latch s.regs.stat)) } :=
  perform_running hr _

/-- A Control write with bit 6 clear stores the fields and goes on (R159). -/
theorem writeCtrl_of_masterSlave_clear {d : Byte} (hd : d.toNat / 64 % 2 = 0) (s : State) :
    writeCtrl d s = { s with
      gridValid := s.gridValid && !invalidatesGrid s.regs.ctrl d
      regs := { s.regs with ctrl := ctrlOfByte s.regs.ctrl d } } := by
  have hbit : ¬ masterSlaveBit d = true := by
    rw [masterSlaveBit_eq, decide_eq_true_iff, hd]
    exact Nat.zero_ne_one
  exact if_neg hbit

/-- The grid stays valid exactly if neither field it was built from changes (R159, R196). -/
theorem not_invalidatesGrid_iff (old : Ctrl) (d : Byte) :
    (!invalidatesGrid old d) = true ↔
      (ctrlOfByte old d).ntBase = old.ntBase ∧ (ctrlOfByte old d).bgTable = old.bgTable := by
  simp [invalidatesGrid, ctrlOfByte]

/-- The Mask fields are the byte's eight bits from the lowest up (R105). -/
theorem toNat_eq_maskOfByte (d : Byte) :
    d.toNat = (maskOfByte d).gray.toNat + 2 * (maskOfByte d).leftBg.toNat +
      4 * (maskOfByte d).leftSpr.toNat + 8 * (maskOfByte d).showBg.toNat +
      16 * (maskOfByte d).showSpr.toNat + 32 * (maskOfByte d).emphR.toNat +
      64 * (maskOfByte d).emphG.toNat + 128 * (maskOfByte d).emphB.toNat := by
  have hlt := d.isLt
  simp only [maskOfByte, BitVec.getLsbD, Nat.toNat_testBit]
  omega

/-! ### The two-write pairs (R110, R111) -/

theorem execAll_two {i j : Instr} {s t : State} (h : exec i s = .next t) :
    execAll [i, j] s = execAll [j] t := by
  rw [execAll, h]

theorem execAll_one {i : Instr} {s t : State} (h : exec i s = .next t) :
    execAll [i] s = .next t := by
  rw [execAll, h]
  rfl

/-- The first Scroll write of a pair (R164). -/
theorem exec_wr5_first {s : State} (hr : s.Running) (h : s.regs.nextScroll = false) (d : Byte) :
    exec (.wr5 d) s = .next { s with
      regs := { s.regs with latch := d, scrollX := d, nextScroll := true }, reply := none } := by
  refine perform_eq hr ?_
  simp [writeScroll, setLatch, State.withRegs, State.clearReply, h]

/-- The second Scroll write of a pair (R164). -/
theorem exec_wr5_second {s : State} (hr : s.Running) (h : s.regs.nextScroll = true) (d : Byte) :
    exec (.wr5 d) s = .next { s with
      regs := { s.regs with latch := d, scrollY := d, nextScroll := false }, reply := none } := by
  refine perform_eq hr ?_
  simp [writeScroll, setLatch, State.withRegs, State.clearReply, h]

/-- A whole Scroll pair (R111). -/
theorem execAll_scrollPair {s : State} (hr : s.Running) (h : s.regs.nextScroll = false)
    (a b : Byte) :
    execAll [.wr5 a, .wr5 b] s = .next { s with
      regs := { s.regs with latch := b, scrollX := a, scrollY := b, nextScroll := false }
      reply := none } := by
  rw [execAll_two (exec_wr5_first hr h a), execAll_one (exec_wr5_second (by exact hr) rfl b)]

/-- An Address write, first or second of its pair (R165). -/
theorem exec_wr6 {s : State} (hr : s.Running) (d : Byte) :
    exec (.wr6 d) s = .next { s with
      regs := { s.regs with
        latch := d
        vramAddr := assembleAddr s.regs.nextAddr s.regs.vramAddr d
        nextAddr := !s.regs.nextAddr }
      reply := none } :=
  perform_running hr _

theorem assembleAddr_first {second : Bool} (h : second = false) (v : VAddr) (d : Byte) :
    (assembleAddr second v d).toNat = d.toNat % 64 * 256 + v.toNat % 256 := by
  rw [h]
  exact addrHigh_toNat v d

theorem assembleAddr_second {second : Bool} (h : second = true) (v : VAddr) (d : Byte) :
    (assembleAddr second v d).toNat = v.toNat / 256 * 256 + d.toNat := by
  rw [h]
  exact addrLow_toNat v d

/-! ### The obligations -/

/-- Settles O1, by the round trip of each constructor. -/
theorem encodeThenDecodeIsIdentity : Obligations.EncodeThenDecodeIsIdentity := decode_encode

/-- Settles O3, by one equation a tag. -/
theorem everyWordDecodesByItsFields : Obligations.EveryWordDecodesByItsFields := by
  intro w n src d reg
  have hreg : reg < 8 := Nat.mod_lt _ (by decide)
  exact ⟨fun ht hrw => (decodeCommand_read ht hrw).trans (busReadInstr_eq_getD hreg),
    fun ht hrw => (decodeCommand_write ht hrw).trans (busWriteInstr_eq_getD hreg d),
    fun ht => decodeCommand_advance ht, fun ht hs => decodeCommand_oamdma ht hs,
    fun ht hs => decodeCommand_badSource ht hs, fun ht => decodeCommand_pollnmi ht,
    fun ht => decodeCommand_reset ht, fun ht => decodeCommand_chrremap ht,
    fun ht => decodeCommand_tileq ht, fun ht => decodeCommand_reserved ht⟩

/-- Settles O5: the first pass fires the action, and no cycle is left for a second. -/
theorem stepRunsTheDueAction : Obligations.StepRunsTheDueAction := by
  intro s c rest hq hc hr hn
  refine ⟨congrArg (Except.ok ∘ instrOfAction) (actionOfCode_codeOfAction _), ?_⟩
  rw [step_decoded hq hc, exec_advance, exec_instrOfAction, perform_running (by exact hr),
    advanced_exactly_due (by exact hr) (by exact hn)]
  rfl

/-- Settles O11: the value is the Status byte, and after the clear its top bit is 0. -/
theorem statusReadReportsAndClears : Obligations.StatusReadReportsAndClears := by
  intro s hr
  exact ⟨_, exec_rd2 hr, statusByte_toNat _ _, _, _, exec_rd2 (by exact hr), rfl,
    statusByte_lt_of_vblank_clear _ (by exact rfl)⟩

/-- Settles O15: bit 6 clear goes past F1, and the fields are the byte's bits. -/
theorem controlWriteDecodesTheByte : Obligations.ControlWriteDecodesTheByte := by
  intro s d hr hd
  obtain ⟨hnt, hincr, hspr, hbg, hsize, hnmi⟩ := ctrlBits_toNat d
  refine ⟨ctrlOfByte s.regs.ctrl d, s.gridValid && !invalidatesGrid s.regs.ctrl d,
    perform_eq hr (writeCtrl_of_masterSlave_clear hd _), hnt, hincr, hspr, hbg, hsize, hnmi, rfl,
    ?_⟩
  rw [Bool.and_eq_true, not_invalidatesGrid_iff]

/-- Settles O22, by the two Scroll writes and their pair. -/
theorem scrollPairBindsFirstToX : Obligations.ScrollPairBindsFirstToX := by
  refine ⟨fun s d hr => ?_, fun s a b hr h => ⟨_, execAll_scrollPair hr h a b, rfl, rfl, rfl⟩,
    fun s t u a b hr h hab ht hu htu => hab ?_⟩
  · cases h : s.regs.nextScroll with
    | false => exact ⟨_, exec_wr5_first hr h d, fun _ => ⟨rfl, rfl⟩, Bool.noConfusion⟩
    | true => exact ⟨_, exec_wr5_second hr h d, Bool.noConfusion, fun _ => ⟨rfl, rfl⟩⟩
  · obtain rfl := Host.Outcome.next.inj ((execAll_scrollPair hr h a b).symm.trans ht)
    obtain rfl := Host.Outcome.next.inj ((execAll_scrollPair hr h b a).symm.trans hu)
    exact congrArg (·.regs.scrollX) htu

/-- Settles O23: each half by the toggle. -/
theorem addressWriteReplacesHalf : Obligations.AddressWriteReplacesHalf := fun _ d hr =>
  ⟨_, exec_wr6 hr d, fun h => assembleAddr_first h _ d, fun h => assembleAddr_second h _ d⟩

/-- Settles O24: each half by the toggle, and one after the other. -/
theorem addressPairFormsThePointer : Obligations.AddressPairFormsThePointer := by
  refine ⟨fun s d hr => ⟨_, exec_wr6 hr d, fun h => ?_, fun h => ?_⟩, fun s hi lo hr h => ?_⟩
  · have hv := assembleAddr_first h s.regs.vramAddr d
    simp only [hv]
    omega
  · have hv := assembleAddr_second h s.regs.vramAddr d
    have hd := d.isLt
    simp only [hv]
    omega
  · refine ⟨_, (execAll_two (exec_wr6 hr hi)).trans (execAll_one (exec_wr6 (by exact hr) lo)), ?_,
      ?_⟩
    · have hhigh := assembleAddr_first h s.regs.vramAddr hi
      have hlow := assembleAddr_second (second := !s.regs.nextAddr) (by rw [h]; rfl)
        (assembleAddr s.regs.nextAddr s.regs.vramAddr hi) lo
      simp only [hlow, hhigh]
      omega
    · simp only [Bool.not_not, h]

/-- Settles O33: what RebuildGrid and DecodeSprites leave is the rendered state, and they change
nothing else. -/
theorem vblankEndRebuildsAndClears : Obligations.VblankEndRebuildsAndClears := by
  intro s hr hc hm
  have hexec : exec .vblankEnd s = .next (actVblankEnd s.clearReply) := perform_running hr _
  have hrendered := rendered_decodeSprites s.clearReply
  have hsame := decodeSprites_same (withBuiltGrid s.clearReply)
  rw [hexec, actVblankEnd_ok (s := s.clearReply) hr hm hc]
  generalize decodeSprites (withBuiltGrid s.clearReply) = u at hrendered hsame ⊢
  refine ⟨_, rfl, ?_, rendered_of_eq hrendered rfl rfl rfl rfl rfl rfl rfl⟩
  rw [hsame]
  rfl

/-- Settles O41, by the cells the copy reaches and those it does not. -/
theorem oamDmaCopiesThePage : Obligations.OamDmaCopiesThePage := by
  intro s page src
  refine ⟨fun hr hwf hlen => ?_, fun hlen => exec_illFormed (i := .oamdma page src)
    (beq_eq_false_iff_ne.mpr hlen) s⟩
  have hok : wellFormed (.oamdma page src) = true := beq_iff_eq.mpr hlen
  refine ⟨copyToOam src s.clearReply,
    (exec_eq_perform Instr.noConfusion hok s).trans (perform_running hr _), rfl, fun i hi => ?_,
    fun a ha => read_dmaCopy_other hwf fun i _ => ?_⟩
  · have hi' : i < src.length := hlen.symm ▸ hi
    rw [List.getElem?_eq_getElem hi']
    exact congrArg some (read_dmaCopy hwf hlen.le hi')
  · omega

/-- Settles O45: Tile's answer, the one entry it fills, and the decode on a miss. -/
theorem tileQueryAnswersAndCaches : Obligations.TileQueryAnswersAndCaches := by
  intro s half id hr
  have hentry := tileFill_entry half id s.clearReply
  refine ⟨_, tileValue s half id, perform_running hr _, ?_, ?_, fun half' id' hne => ?_,
    fun px' h => ?_, fun h => ?_⟩
  · rw [tileFill_sameButCache half id s.clearReply]
    rfl
  · exact (hentry (tileKey half id)).trans (if_pos rfl)
  · refine (hentry (tileKey half' id')).trans (if_neg fun hk => hne ?_)
    obtain ⟨rfl, rfl⟩ := tileKey_inj hk
    rfl
  · rw [tileValue, h, Option.getD_some]
  · rw [tileValue, h, Option.getD_none]
    exact fetchTile_shows s.mapper half id

/-- Settles O2: the decoder computes each word; OAMDMA's word encodes its instruction. -/
theorem specWordsDecode : Obligations.SpecWordsDecode :=
  ⟨rfl, rfl, rfl, decode_oamdma_page2 List.length_replicate, rfl, rfl, rfl, rfl, rfl, rfl, rfl,
    rfl, rfl⟩

/-- Settles O7: the decoder's two rejections, each refused by its name. -/
theorem reservedTagIsRefused : Obligations.ReservedTagIsRefused := fun _ _ _ hq =>
  ⟨fun ht => step_rejected hq (decodeCommand_reserved ht),
    fun ht hs => step_rejected hq (decodeCommand_badSource ht hs)⟩

/-- Settles O17: the Mask fields are the byte's bits. -/
theorem maskWriteDecodesTheByte : Obligations.MaskWriteDecodesTheByte := fun _ d hr =>
  ⟨maskOfByte d, perform_running hr _, toNat_eq_maskOfByte d⟩

end Sys2Proof.Machine

/-! # The scheduler's statements: ADVANCE's loop, the event actions, F2 and U2 inside them -/

namespace Sys2Proof.Machine

open Sys2Proof

/-! ### ADVANCE in two parts (R139) -/

/-- The cycle moved by `n`, not wrapped. -/
abbrev moved (n : Nat) (s : State) : State := s.withRegs fun r => { r with cycle := r.cycle + n }

/-- Short of an outstanding action within the frame ADVANCE moves the cycle, which does not wrap (R25,
R130). -/
theorem advanced_short {n : Nat} {s : State} (hr : s.Running)
    (hlt : s.regs.cycle + n < s.regs.nextActionCycle)
    (h : s.regs.nextActionCycle ≤ Config.cyclesPerFrame) : advanced n s = moved n s := by
  rw [advanced_last hr hlt]
  simp only [moved, State.withRegs, Nat.mod_eq_of_lt (hlt.trans_le h)]

/-- ADVANCE counts from where the cycle stands: due or not, and what is left, depend on the sum of cycle and
operand, and firing on the action's own cycle (R130). -/
theorem advanced_moved (a b : Nat) {s : State} (hr : s.Running) :
    advanced b (moved a s) = advanced (a + b) s := by
  have hsum : (moved a s).regs.cycle + b = s.regs.cycle + (a + b) := Nat.add_assoc _ _ _
  by_cases hdue : s.regs.nextActionCycle ≤ s.regs.cycle + (a + b)
  · rw [advanced_fire hr hdue, advanced_fire (s := moved a s) hr (hdue.trans_eq hsum.symm), hsum]
    rfl
  · rw [Nat.not_le] at hdue
    rw [advanced_last hr hdue, advanced_last (s := moved a s) hr (hsum.trans_lt hdue)]
    simp only [moved, State.withRegs, Nat.add_assoc]

/-- Two ADVANCEs are one (R139). -/
theorem advanced_add (a b : Nat) (s : State)
    (h : s.Running → s.regs.nextActionCycle ≤ Config.cyclesPerFrame) :
    advanced b (advanced a s) = advanced (a + b) s := by
  induction a, s using advanced_induct with
  | halted a s c r hs => rw [advanced_halted hs, advanced_halted hs, advanced_halted hs]
  | last a s hs hlt => rw [advanced_short hs hlt (h hs), advanced_moved a b hs]
  | fires a s hs hle ih =>
    have hrem : s.regs.cycle + (a + b) - s.regs.nextActionCycle =
        s.regs.cycle + a - s.regs.nextActionCycle + b := by omega
    rw [advanced_fire hs hle, advanced_fire hs (by omega), ih fun hr => (ahead_fire _ _ hr).2, hrem]

/-! ### What VBLANK_START and DRAW leave -/

/-- The NMI flag after VBLANK_START (R133): raised if enabled, otherwise left. -/
theorem nmiRaised_eq_ite (pending enable : Bool) :
    (pending || enable) = if enable then true else pending := by
  rw [Bool.if_true_left, Bool.decide_eq_true, Bool.or_comm]

theorem predict_presented (s : State) : (predict s).2.presented = s.presented := by
  rcases predict_cases s with ⟨e, -⟩ | ⟨e, -⟩
  · rw [e, halt_presented]
  · rw [e]

theorem schedule_presented (a : Action) (c : Nat) (s : State) :
    (schedule a c s).presented = s.presented := by
  rcases schedule_cases a c s with ⟨-, e⟩ | ⟨-, e⟩ <;> rw [e]
  rfl

theorem finishDraw_presented (p : Option Nat × State) :
    (finishDraw p).presented = p.2.presented :=
  andThen_keeps (·.presented) (by cases p.1 <;> exact schedule_presented _ _ _)

/-- DRAW on a valid grid presents the counted frame, whatever it ends in (R135, R137). -/
theorem actDraw_presented {s : State} (hr : s.Running) (hg : s.gridValid = true) :
    (actDraw s).presented = s.presented ++ [⟨s.regs.frame + 1, s.grid, s.sprites⟩] := by
  rw [actDraw_valid hr hg, finishDraw_presented, predict_presented]
  rfl

/-- DRAW on a valid grid halts by the size test or by Schedule's test only (R203, R222). -/
theorem causes_actDraw_valid {s : State} (hr : s.Running) (hg : s.gridValid = true) :
    CausesIn (fun c => c = .sprite8x16 ∨ c = .schedulerInvariant) (actDraw s) := by
  rw [actDraw_valid hr hg]
  refine causes_andThen (fun c r e => .inl (predict_halt (by exact hr) e)) fun hr' c r e => .inr ?_
  cases hp : (predict (present (countFrame s))).1 <;> rw [hp] at e <;>
    exact causes_schedule hr' c r e

/-- DRAW on an invalid grid answers what it answers on the grid RebuildGrid builds (R135, R196). -/
theorem exec_draw_rebuilds {s : State} (hr : s.Running) (hg : s.gridValid = false)
    (hm : mirroringOf s.mapper ≠ .other) : exec .draw s = exec .draw (withBuiltGrid s) := by
  have hinvalid : exec .draw s = .next (actDraw s.clearReply) := perform_running hr actDraw
  have hbuilt : exec .draw (withBuiltGrid s) = .next (actDraw (withBuiltGrid s.clearReply)) :=
    perform_running (s := withBuiltGrid s) hr actDraw
  rw [hinvalid, hbuilt, actDraw_rebuild (s := s.clearReply) hr hg hm]

/-- What DRAW schedules, for what Predict returned (R135). -/
theorem scheduleHit_eq (h : Option Nat) (s : State) :
    ∃ a, scheduleHit h s = schedule a (h.getD s.params.vblankStartCycle) s := by
  cases h <;> exact ⟨_, rfl⟩

/-- DRAW's Schedule refused, after the frame is counted and presented and tiles were looked up (R132). -/
theorem schedule_drawn_bad {a : Action} {c : Nat} {s u : State}
    (hu : SameButCache (present (countFrame s.clearReply)) u)
    (hc : c ≤ s.regs.cycle ∨ Config.cyclesPerFrame < c) :
    schedule a c u = { s with
      regs := { s.regs with frame := s.regs.frame + 1 }
      run := .halted .schedulerInvariant { s.regs with frame := s.regs.frame + 1 }
      tileCache := u.tileCache
      presented := s.presented ++ [⟨s.regs.frame + 1, s.grid, s.sprites⟩]
      reply := none } := by
  rw [schedule_bad (by rw [hu]; exact hc), hu]
  rfl

/-! ### The obligations -/

/-- Settles O29, by the two kinds of pass of the loop. -/
theorem advanceFollowsTheLoop : Obligations.AdvanceFollowsTheLoop := by
  intro n s hr
  refine ⟨fun h => ?_, fun h => ⟨fire s.regs.nextAction (arrive s.clearReply), ?_, ?_⟩⟩
  · rw [exec_advance, advanced_last (s := s.clearReply) hr h]
    rfl
  · rw [exec_instrOfAction]
    exact perform_running (by exact hr) _
  · have hreply : (fire s.regs.nextAction (arrive s.clearReply)).reply = none :=
      (frame_fire _ _).reply
    rw [exec_advance, exec_advance, clearReply_of_reply_none hreply, advanced_fire (s := s.clearReply) hr h]
    rfl

/-- Settles O30, by induction on the passes of the first ADVANCE. -/
theorem advanceIsAssociative : Obligations.AdvanceIsAssociative := by
  intro a b s h
  refine ⟨_, exec_advance a s, ?_⟩
  rw [exec_advance, exec_advance, clearReply_of_reply_none (advanced_reply a s.clearReply),
    advanced_add a b s.clearReply h]

/-- Settles O32: Schedule accepts VBLANK_END. -/
theorem vblankStartRaisesFlagAndNmi : Obligations.VblankStartRaisesFlagAndNmi := by
  intro s hr h h'
  rw [← nmiRaised_eq_ite]
  exact perform_eq hr (actVblankStart_ok (s := s.clearReply) h h')

/-- Settles O34: RebuildGrid halts at its entry, and a valid grid keeps DRAW from RebuildGrid. -/
theorem unsupportedMirroringHalts : Obligations.UnsupportedMirroringHalts := by
  intro s hr hm
  refine ⟨perform_eq hr (actVblankEnd_bad (s := s.clearReply) hm),
    fun hg => perform_eq hr (actDraw_bad (s := s.clearReply) hg hm), fun hg => ?_⟩
  have hcause := causes_actDraw_valid (s := s.clearReply) hr hg
  refine ⟨actDraw s.clearReply, perform_running hr actDraw,
    actDraw_presented (s := s.clearReply) hr hg, fun r e => ?_⟩
  rcases hcause _ r e with hc | hc <;> cases hc

/-- Settles O35: the grid is the one RebuildGrid builds. -/
theorem drawRebuildsAnInvalidGrid : Obligations.DrawRebuildsAnInvalidGrid := by
  intro s hr hg hm
  exact ⟨builtGrid s.mapper s.regs.ctrl.ntBase, builtGrid_shows _ _, exec_draw_rebuilds hr hg hm⟩

/-- Settles O36: Predict exits early, and Schedule accepts VBLANK_START. -/
theorem drawWithoutPredictionSchedulesVblank : Obligations.DrawWithoutPredictionSchedulesVblank := by
  intro s hr hg h h' hoff
  exact perform_eq hr ((actDraw_off (s := s.clearReply) hr hg hoff).trans
    (schedule_drawn (s := s) rfl h h'))

/-- Settles O37: the size test stands before the scan. -/
theorem drawInTallSpriteModeHalts : Obligations.DrawInTallSpriteModeHalts := by
  intro s hr hg hb hs hy ht
  exact perform_eq hr (actDraw_tall (s := s.clearReply) hr hg hb hs hy ht)

/-- Settles O39: Schedule accepts VBLANK_START. -/
theorem sprite0HitSetsTheFlag : Obligations.Sprite0HitSetsTheFlag := by
  intro s hr h h'
  exact perform_eq hr (actSprite0Hit_ok (s := s.clearReply) h h')

/-- Settles O40: each action's Schedule refuses, after the action's other effects. -/
theorem schedulingBackwardHalts : Obligations.SchedulingBackwardHalts := by
  refine ⟨fun s hr h => ⟨_, rfl, ?_⟩,
    fun s hr h => ⟨_, rfl, perform_eq hr (actSprite0Hit_bad (s := s.clearReply) h)⟩,
    fun s hr hc hm => ?_⟩
  · rw [← nmiRaised_eq_ite]
    exact perform_eq hr (actVblankStart_bad (s := s.clearReply) h)
  · have hrendered := rendered_decodeSprites s.clearReply
    have hsame := decodeSprites_same (withBuiltGrid s.clearReply)
    have hexec := perform_eq hr (actVblankEnd_late (s := s.clearReply) hr hm hc)
    generalize decodeSprites (withBuiltGrid s.clearReply) = u at hrendered hsame hexec
    refine ⟨_, _, rfl, hexec, ?_, rendered_of_eq hrendered rfl rfl rfl rfl rfl rfl rfl⟩
    rw [hsame]
    rfl

/-- Settles O60: a state has one prediction, and Schedule refuses its cycle. -/
theorem drawSchedulingBackwardHalts : Obligations.DrawSchedulingBackwardHalts := by
  refine ⟨fun s hr hg hoff hlate => ⟨_, rfl, ?_⟩, fun s c hr hg hb hs hy ht hpred hlate => ?_⟩
  · exact perform_eq hr ((actDraw_off (s := s.clearReply) hr hg hoff).trans
      (schedule_drawn_bad (s := s) rfl hlate))
  · obtain ⟨h, u, hdraw, hfound, hsame, hcache⟩ :=
      actDraw_scan (s := s.clearReply) hr hg hb hs hy ht
    have hparams : u.params = s.params := by rw [hsame]; rfl
    have hcycle : h.getD u.params.vblankStartCycle = c := by
      rcases hpred with ⟨hnone, rfl⟩ | hhit
      · rw [predicted_unique hfound (h' := none) hnone, hparams, Option.getD_none]
      · rw [predicted_unique hfound (h' := some c) hhit, Option.getD_some]
    obtain ⟨a, hsched⟩ := scheduleHit_eq h u
    rw [hcycle, schedule_drawn_bad hsame hlate] at hsched
    exact ⟨_, _, rfl, perform_eq hr (hdraw.trans hsched), rfl, hcache⟩

end Sys2Proof.Machine

/-! # The registers' statements: write-only reads, OAMDATA, STATUS, OAMADDR and SCROLL writes, F1, and
what no bus command touches -/

namespace Sys2Proof.Machine

open Sys2Proof

/-! ### Bus words by their fields (R101, R102) -/

theorem decodeCommand_readWord (reg : BitVec 3) (x : Byte) (n : Nat) (src : List Byte) :
    decodeCommand ⟨packWord 0#4 0#1 reg x, n, src⟩ = busReadInstr reg.toNat := by
  simp [decodeCommand]

theorem decodeCommand_writeWord (reg : BitVec 3) (d : Byte) (n : Nat) (src : List Byte) :
    decodeCommand ⟨packWord 0#4 1#1 reg d, n, src⟩ = busWriteInstr reg.toNat d := by
  simp [decodeCommand]

/-! ### Who can halt a Running machine (R220) -/

/-- A Control write with bit 6 set halts before any field is stored (R159, D3, D30). -/
theorem writeCtrl_of_masterSlave_set {d : Byte} (hd : d.toNat / 64 % 2 = 1) (s : State) :
    writeCtrl d s = s.halt .masterSlaveSet :=
  if_pos (by rw [masterSlaveBit_eq, decide_eq_true_iff, hd])

/-- The instructions that can halt a Running machine, each with the causes it can halt with (R220 to
R227). -/
inductive HaltSource : Instr → HaltCause → Prop where
  | controlWrite {d : Byte} : d.toNat / 64 % 2 = 1 → HaltSource (.wr0 d) .masterSlaveSet
  | chrRemap : HaltSource .chrremap .bankedChrInvalidation
  | advance {n : Nat} {c : HaltCause} :
    c = .schedulerInvariant ∨ c = .sprite8x16 ∨ c = .unsupportedMirroring →
      HaltSource (.advance n) c
  | action {a : Action} {c : HaltCause} :
    c = .schedulerInvariant ∨ (c = .sprite8x16 ∧ a = .draw) ∨
      (c = .unsupportedMirroring ∧ (a = .vblankEnd ∨ a = .draw)) → HaltSource (instrOfAction a) c

theorem causes_writeCtrl (d : Byte) {s : State} (hr : s.Running) :
    CausesIn (HaltSource (.wr0 d)) (writeCtrl d s) := by
  rcases Nat.mod_two_eq_zero_or_one (d.toNat / 64) with hd | hd
  · rw [writeCtrl_of_masterSlave_clear hd]
    exact causes_of_running hr
  · rw [writeCtrl_of_masterSlave_set hd]
    rintro c r ⟨⟩
    exact .controlWrite hd

theorem causes_bodyOf (i : Instr) {s : State} (hr : s.Running) :
    CausesIn (HaltSource i) (bodyOf i s) := by
  have haction : ∀ a, CausesIn (HaltSource (instrOfAction a)) (fire a s) := fun a c r e =>
    .action (causes_fire a hr c r e)
  cases i with
  | wr0 d => exact causes_writeCtrl d (s := setLatch d s) hr
  | wr7 d => exact causes_of_running ((vramWrite_run _ d (setLatch d s)).trans hr)
  | tileq half id => exact causes_of_running ((tileFill_run half id s).trans hr)
  | chrremap =>
    rintro c r ⟨⟩
    exact .chrRemap
  | reset => exact causes_of_running (resetCore_run s)
  | advance n => exact fun c r e => .advance (causes_advanced n hr c r e)
  | vblankStart => exact haction .vblankStart
  | vblankEnd => exact haction .vblankEnd
  | draw => exact haction .draw
  | sprite0Hit => exact haction .sprite0Hit
  | _ => exact causes_of_running hr

/-- Whatever halts a Running machine is a source of the halt's cause. -/
theorem exec_haltSource {i : Instr} {s t : State} {c : HaltCause} {r : Regs} (hr : s.Running)
    (h : exec i s = .next t) (ht : t.run = .halted c r) : HaltSource i c := by
  rcases exec_next_cases h with ⟨-, rfl⟩ | ⟨⟨c', r', hs⟩, -⟩
  · exact causes_bodyOf i (s := s.clearReply) hr c r ht
  · cases hr.symm.trans hs

/-- F1's only source (R221). -/
theorem HaltSource.of_masterSlave {i : Instr} (h : HaltSource i .masterSlaveSet) :
    ∃ d, i = .wr0 d ∧ d.toNat / 64 % 2 = 1 := by
  cases h with
  | controlWrite hd => exact ⟨_, rfl, hd⟩
  | advance h => simp at h
  | action h => simp at h

/-! ### What no bus command changes (R150, R168) -/

theorem isBus_wellFormed {i : Instr} (hi : isBus i = true) : i ≠ .reset ∧ wellFormed i = true := by
  cases i with
  | oamdma page src => cases hi
  | reset => cases hi
  | _ => exact ⟨Instr.noConfusion, rfl⟩

/-- The clock, the frame, the hit, overflow and NMI flags, and the caches. -/
abbrev clockAndCaches (s : State) :
    Nat × Nat × Action × Nat × Bool × Bool × Bool × TileCache × Grid × Sprites :=
  (s.regs.cycle, s.regs.frame, s.regs.nextAction, s.regs.nextActionCycle, s.regs.stat.spr0Hit,
    s.regs.stat.overflow, s.regs.nmiPending, s.tileCache, s.grid, s.sprites)

theorem writeCtrl_clockAndCaches (d : Byte) (s : State) :
    clockAndCaches (writeCtrl d s) = clockAndCaches s := by
  rcases writeCtrl_cases d s with e | ⟨valid, e⟩
  · rw [e]
    rfl
  · rw [e]

theorem writeData_clockAndCaches (d : Byte) (s : State) :
    clockAndCaches (writeData d s) = clockAndCaches s := by
  rw [writeData]
  rcases vramWrite_cases s.regs.vramAddr d s with ⟨-, e⟩ | ⟨-, e⟩ <;> rw [e] <;> rfl

theorem bodyOf_bus_clockAndCaches {i : Instr} (hi : isBus i = true) (s : State) :
    clockAndCaches (bodyOf i s) = clockAndCaches s := by
  cases i with
  | rd0 | rd1 | rd2 | rd3 | rd4 | rd5 | rd6 | rd7 => rfl
  | wr0 d => exact writeCtrl_clockAndCaches d (setLatch d s)
  | wr7 d => exact writeData_clockAndCaches d (setLatch d s)
  | wr1 d | wr2 d | wr3 d | wr4 d | wr5 d | wr6 d => rfl
  | _ => cases hi

/-! ### The obligations -/

/-- Settles O16: bit 6 halts after the latch, and of the sources of halts only WR0 raises F1. -/
theorem masterSlaveBitHalts : Obligations.MasterSlaveBitHalts :=
  ⟨fun _ _ hr hd => perform_eq hr (writeCtrl_of_masterSlave_set hd _),
    fun _ _ _ _ hr h ht => (exec_haltSource hr h ht).of_masterSlave⟩

/-- Settles O28: no bus command's body touches them, and in Halted it does not run. -/
theorem busCommandsKeepTheClockAndCaches : Obligations.BusCommandsKeepTheClockAndCaches := by
  intro i s hi
  obtain ⟨hreset, hwf⟩ := isBus_wellFormed hi
  have hkeep : clockAndCaches (s.clearReply.andThen (bodyOf i)) = clockAndCaches s :=
    andThen_keeps clockAndCaches (bodyOf_bus_clockAndCaches hi s.clearReply)
  exact ⟨_, exec_eq_perform hreset hwf s, by simpa only [Prod.mk.injEq] using hkeep⟩

/-- Settles O10: the five reads share one body, and their words differ in the register field. -/
theorem writeOnlyReadsReturnTheLatch : Obligations.WriteOnlyReadsReturnTheLatch := by
  refine ⟨fun s i hr hi => ?_, fun x n src => ?_⟩
  · have hbody : exec i s = perform readLatch s := by
      simp only [List.mem_cons, List.not_mem_nil, or_false] at hi
      rcases hi with rfl | rfl | rfl | rfl | rfl <;> rfl
    exact hbody.trans (perform_running hr readLatch)
  · exact ⟨decodeCommand_readWord 0#3 x n src, decodeCommand_readWord 1#3 x n src,
      decodeCommand_readWord 3#3 x n src, decodeCommand_readWord 5#3 x n src,
      decodeCommand_readWord 6#3 x n src⟩

/-- Settles O12: the body of RD4 only answers. -/
theorem oamDataReadReturnsTheByte : Obligations.OamDataReadReturnsTheByte := fun _ hr =>
  perform_running hr readOam

/-- Settles O18: WR2 has no effect after the latch. -/
theorem statusWriteOnlyLatches : Obligations.StatusWriteOnlyLatches :=
  ⟨fun _ d hr => perform_running hr (setLatch d), decodeCommand_writeWord 2#3⟩

/-- Settles O19: WR3's effect is the pointer alone. -/
theorem oamAddressWriteSetsThePointer : Obligations.OamAddressWriteSetsThePointer :=
  ⟨fun _ d hr => perform_running hr fun s => writeOamAddr d (setLatch d s),
    decodeCommand_writeWord 3#3⟩

/-- Settles O21: the first and the second Scroll write. -/
theorem scrollWriteSetsOneComponent : Obligations.ScrollWriteSetsOneComponent := fun _ d hr =>
  ⟨fun h => exec_wr5_first hr h d, fun h => exec_wr5_second hr h d⟩

end Sys2Proof.Machine

/-! # The tile cache's statements: a filled tile over every instruction, CHRREMAP's halt -/

namespace Sys2Proof.Machine

open Sys2Proof

/-! ### A filled entry under each instruction's body (R180, R184) -/

theorem bodyOf_bus_tileCache {i : Instr} (hi : isBus i = true) (s : State) :
    (bodyOf i s).tileCache = s.tileCache := by
  have hkeep := bodyOf_bus_clockAndCaches hi s
  simp only [clockAndCaches, Prod.mk.injEq] at hkeep
  obtain ⟨-, -, -, -, -, -, -, hcache, -⟩ := hkeep
  exact hcache

theorem fire_keeps_tile (a : Action) {s : State} {k : Fin 512} {px : Tile}
    (h : s.tileCache[k] = some px) : (fire a s).tileCache[k] = some px :=
  fire_keeps_cache (cacheProperty_entry k px) (fun _ _ _ => tileFill_keeps) a h

theorem advanced_keeps_tile (n : Nat) {s : State} {k : Fin 512} {px : Tile}
    (h : s.tileCache[k] = some px) : (advanced n s).tileCache[k] = some px :=
  advanced_keeps_cache (cacheProperty_entry k px) (fun _ _ _ => tileFill_keeps) n h

/-- Only Tile's fills write the cache, and a fill leaves a filled entry alone. -/
theorem bodyOf_keeps_tile {i : Instr} (hi : i ≠ .reset) {s : State} {k : Fin 512} {px : Tile}
    (h : s.tileCache[k] = some px) : (bodyOf i s).tileCache[k] = some px := by
  by_cases hbus : isBus i = true
  · rw [bodyOf_bus_tileCache hbus]
    exact h
  · cases i with
    | reset => exact absurd rfl hi
    | advance n => exact advanced_keeps_tile n h
    | vblankStart => exact fire_keeps_tile .vblankStart h
    | vblankEnd => exact fire_keeps_tile .vblankEnd h
    | draw => exact fire_keeps_tile .draw h
    | sprite0Hit => exact fire_keeps_tile .sprite0Hit h
    | tileq half id => exact tileFill_keeps h
    | oamdma page src | pollnmi | chrremap => exact h
    | _ => exact absurd rfl hbus

/-! ### The obligations -/

/-- Settles O53: a body keeps a filled entry, in Halted no body runs, and RESET makes the cache anew. -/
theorem filledTilesStayUntilReset : Obligations.FilledTilesStayUntilReset := by
  refine ⟨fun i s t k px h hi hk => ?_, fun s k => ⟨resetCore s, rfl, ?_⟩⟩
  · rcases exec_next_cases h with ⟨-, rfl⟩ | ⟨-, rfl⟩
    · exact bodyOf_keeps_tile hi (s := s.clearReply) hk
    · exact hk
  · exact (resetCore_freshCore s).tileCache k

/-- Settles O44: the body of CHRREMAP is the halt alone. -/
theorem chrRemapHalts : Obligations.ChrRemapHalts := fun _ hr =>
  perform_running hr fun s => s.halt .bankedChrInvalidation

end Sys2Proof.Machine

/-! # The host ports' statements: POLLNMI, every command in Halted, the NMI flag's writers -/

namespace Sys2Proof.Machine

open Sys2Proof

/-! ### What an instruction does to the NMI flag (R229, R230) -/

/-- From registers `r` to `r'` instruction `i` has kept the NMI flag, or it is one of the two that raise
it, `nmiEnable` being set, or one of the two that clear it. -/
inductive NmiEffect (i : Instr) (r r' : Regs) : Prop where
  | kept : r'.nmiPending = r.nmiPending → NmiEffect i r r'
  | raised : r'.nmiPending = true → r.ctrl.nmiEnable = true →
    ((∃ n, i = .advance n) ∨ i = .vblankStart) → NmiEffect i r r'
  | cleared : r'.nmiPending = false → i = .pollnmi ∨ i = .reset → NmiEffect i r r'

theorem NmiSince.effect {i : Instr} {s t : State} (h : NmiSince s t)
    (hi : (∃ n, i = .advance n) ∨ i = .vblankStart) : NmiEffect i s.regs t.regs := by
  obtain ⟨-, hkept | ⟨henable, hraised⟩⟩ := h
  · exact .kept hkept
  · exact .raised hraised henable hi

/-- Firing another action than VBLANK_START leaves the flag (R131). -/
theorem fire_nmi_of_ne {a : Action} (ha : a ≠ .vblankStart) (s : State) :
    (fire a s).regs.nmiPending = s.regs.nmiPending := by
  rw [fire_nmi, decide_eq_false ha, Bool.false_and, Bool.or_false]

theorem bodyOf_bus_nmiPending {i : Instr} (hi : isBus i = true) (s : State) :
    (bodyOf i s).regs.nmiPending = s.regs.nmiPending := by
  have hkeep := bodyOf_bus_clockAndCaches hi s
  simp only [clockAndCaches, Prod.mk.injEq] at hkeep
  obtain ⟨-, -, -, -, -, -, hnmi, -⟩ := hkeep
  exact hnmi

theorem bodyOf_nmiEffect (i : Instr) (s : State) : NmiEffect i s.regs (bodyOf i s).regs := by
  by_cases hbus : isBus i = true
  · exact .kept (bodyOf_bus_nmiPending hbus s)
  · cases i with
    | advance n => exact (nmiSince_advanced n s).effect (.inl ⟨n, rfl⟩)
    | vblankStart => exact (nmiSince_fire .vblankStart ⟨rfl, .inl rfl⟩).effect (.inr rfl)
    | vblankEnd => exact .kept (fire_nmi_of_ne (a := .vblankEnd) Action.noConfusion s)
    | draw => exact .kept (fire_nmi_of_ne (a := .draw) Action.noConfusion s)
    | sprite0Hit => exact .kept (fire_nmi_of_ne (a := .sprite0Hit) Action.noConfusion s)
    | pollnmi => exact .cleared rfl (.inl rfl)
    | reset => exact .cleared rfl (.inr rfl)
    | tileq half id => exact .kept (congrArg Regs.nmiPending (tileFill_regs half id s))
    | oamdma page src | chrremap => exact .kept rfl
    | _ => exact absurd rfl hbus

theorem exec_nmiEffect {i : Instr} {s t : State} (h : exec i s = .next t) :
    NmiEffect i s.regs t.regs := by
  rcases exec_next_cases h with ⟨-, rfl⟩ | ⟨-, rfl⟩
  · exact bodyOf_nmiEffect i s.clearReply
  · exact .kept rfl

/-! ### The obligations -/

/-- Settles O46: a well-formed instruction but RESET runs its body, and in Halted no body runs. -/
theorem haltedCommandsChangeNothing : Obligations.HaltedCommandsChangeNothing :=
  fun i s _ _ hs hw hi => (exec_eq_perform hi hw s).trans (perform_halted hs (bodyOf i))

/-- Settles O52: of the flag's three effects a raise can only be the second and a clear only the third. -/
theorem nmiFlagHasItsWriters : Obligations.NmiFlagHasItsWriters := by
  intro i s t h
  obtain hkept | ⟨hraised, henable, hi⟩ | ⟨hcleared, hi⟩ := exec_nmiEffect h
  · simp +contextual [hkept]
  · exact ⟨fun _ _ => ⟨henable, hi⟩, by simp [hraised]⟩
  · exact ⟨by simp [hcleared], fun _ _ => hi⟩

/-- Settles O43: the body of POLLNMI, run from the state and from the one it answers. -/
theorem pollReturnsAndClearsNmi : Obligations.PollReturnsAndClearsNmi := by
  intro s hr t
  have ht : t.Running := hr
  exact ⟨perform_running hr pollNmi, perform_running ht pollNmi⟩

end Sys2Proof.Machine

/-! # The exceptions' statements: F3 from a register index, what every halt leaves, who raises which
cause -/

namespace Sys2Proof.Machine

open Sys2Proof

/-! ### Register indices outside 0..7 (R21, R223) -/

theorem busReadInstr_outOfRange {index : Nat} (h : 8 ≤ index) :
    busReadInstr index = .error (.registerIndex index) := by
  obtain ⟨k, rfl⟩ := Nat.exists_eq_add_of_le' h
  rfl

theorem busWriteInstr_outOfRange {index : Nat} (h : 8 ≤ index) (d : Byte) :
    busWriteInstr index d = .error (.registerIndex index) := by
  obtain ⟨k, rfl⟩ := Nat.exists_eq_add_of_le' h
  rfl

/-- A word's register field has three bits, so its index is a register's (R101, R102). -/
theorem decodeCommand_ne_registerIndex (c : Command) (index : Nat) :
    decodeCommand c ≠ .error (.registerIndex index) := by
  intro h
  rw [decodeCommand] at h
  split at h
  · split at h
    · cases (busReadInstr_eq_getD (regOf c.word).isLt).symm.trans h
    · cases (busWriteInstr_eq_getD (regOf c.word).isLt (dataOf c.word)).symm.trans h
  · cases h
  · split at h <;> cases h
  all_goals cases h

/-! ### The event actions as instructions (R103, R131) -/

theorem bodyOf_instrOfAction (a : Action) : bodyOf (instrOfAction a) = fire a := by
  cases a <;> rfl

theorem instrOfAction_mem (a : Action) :
    instrOfAction a ∈ [Instr.vblankStart, .vblankEnd, .draw, .sprite0Hit] := by
  cases a <;> simp [instrOfAction]

/-! ### What a halting instruction leaves (R225, R232) -/

/-- ADVANCE's loop leaves a faithful snapshot: it halts only inside the action it fires. -/
theorem snapshot_advanced (n : Nat) {s : State} (h : s.Running) : SnapshotFaithful (advanced n s) :=
  advanceLoop_induct SnapshotFaithful (fun u hu _ => snapshot_fire _ (s := arrive u) hu)
    (fun u _ hu _ _ => snapshot_of_running (s := u.withRegs _) hu) _ _ (snapshot_of_running h)

/-- No source of a halt returns a value, and each leaves a faithful snapshot. -/
theorem HaltSource.precise {i : Instr} {c : HaltCause} (h : HaltSource i c) {s : State}
    (hr : s.Running) : SnapshotFaithful (bodyOf i s) ∧ (bodyOf i s).reply = s.reply := by
  cases h with
  | @controlWrite d hd =>
    have hbody : bodyOf (.wr0 d) s = (setLatch d s).halt .masterSlaveSet :=
      writeCtrl_of_masterSlave_set hd _
    rw [hbody]
    exact ⟨snapshot_halt _ _, rfl⟩
  | chrRemap => exact ⟨snapshot_halt s _, rfl⟩
  | @advance n => exact ⟨snapshot_advanced n hr, advanced_reply n s⟩
  | @action a =>
    rw [bodyOf_instrOfAction]
    exact ⟨snapshot_fire a hr, (frame_fire a s).reply⟩

/-! ### The obligations -/

/-- Settles O6: neither request decodes, and F3 is the whole of the rejection. -/
theorem registerIndexOutOfRangeHalts : Obligations.RegisterIndexOutOfRangeHalts := by
  refine ⟨fun s rest index d hindex hr hq => ?_, decodeCommand_ne_registerIndex⟩
  have hrejected : step s = badIndex index { s with requests := rest } := by
    rcases hq with hq | hq
    · exact step_rejected hq (busReadInstr_outOfRange hindex)
    · exact step_rejected hq (busWriteInstr_outOfRange hindex d)
  rw [hrejected]
  exact perform_running (s := { s with requests := rest }) hr _

/-- Settles O47: a Running machine answers the body's state, and an instruction whose body
halts is a source of the halt. -/
theorem haltIsPrecise : Obligations.HaltIsPrecise := by
  intro i s t c r hr h ht
  have hsource := exec_haltSource hr h ht
  rcases exec_next_cases h with ⟨-, rfl⟩ | ⟨⟨c', r', hs⟩, -⟩
  · obtain ⟨hsnapshot, hreply⟩ := hsource.precise (s := s.clearReply) hr
    exact ⟨hsnapshot c r ht, hreply⟩
  · cases hr.symm.trans hs

/-- Settles O48: each source of a halt, with each of its causes, is in R220's table. -/
theorem haltCausesHaveTheirSources : Obligations.HaltCausesHaveTheirSources := by
  intro i s t c r hr h ht
  cases exec_haltSource hr h ht with
  | controlWrite => exact ⟨_, rfl⟩
  | chrRemap => rfl
  | advance hc => obtain rfl | rfl | rfl := hc <;> exact .inl ⟨_, rfl⟩
  | @action a _ hc =>
    obtain rfl | ⟨rfl, rfl⟩ | ⟨rfl, rfl | rfl⟩ := hc
    · exact .inr (instrOfAction_mem a)
    · exact .inr rfl
    · exact .inr (.inl rfl)
    · exact .inr (.inr rfl)

end Sys2Proof.Machine
